-- ==== Sys2Proof/Word.lean ====
section
/-! DEFINITION. The machine's one data type, the signed 64-bit word (R5, R6, R11), and its bounds. -/

namespace Sys2Proof

/-- A word: a signed 64-bit integer (R6), in two's complement (D1; log 6). Its value is `w.toInt`. -/
abbrev Word := BitVec 64

/-- The least word value, −2^63 (R5). -/
abbrev intMin : Int := -9223372036854775808

/-- The greatest word value, 2^63 − 1 (R5). -/
abbrev intMax : Int := 9223372036854775807

/-- `ADDR_MAX`, the greatest memory address, 2^63 − 1 (R5, D3). An address is a `Nat` up to it. -/
abbrev addrMax : Nat := 9223372036854775807

end Sys2Proof
end

