-- ==== Sys2Proof/Config.lean ====
section
/-! DEFINITION. The implementation parameters of R5 that the core's rules read. A machine carries its parameters in
`State.config` and no step changes them, so every claim about a step holds for each value of them (log 2).
There is no free value: the spec leaves no result of an instruction open. -/

namespace Sys2Proof

/-- `OVERFLOW_POLICY` (R5, R8): what an out-of-range Add, Multiply or AdjustBase does. -/
inductive OverflowPolicy where
  | fault
  | wrap
  deriving DecidableEq, Repr

/-- The parameters of R5. `STEP_LIMIT` is the host's alone (R80) and is the argument of `State.run`. -/
structure Config where
  /-- `MEM_WORDS`: how many words can be stored (R33, D5). -/
  memWords : Nat
  /-- `OVERFLOW_POLICY` (R8, D2). -/
  overflowPolicy : OverflowPolicy
  /-- `UNUSED_DIGITS_FAULT`: whether a digit that belongs to no operand makes the word illegal (R59, D7). -/
  unusedDigitsFault : Bool
  /-- `OUT_CAPACITY`: the greatest length of the output sequence, `none` for unbounded (R17, D14). -/
  outCapacity : Option Nat
  deriving DecidableEq, Repr

/-- The default of every parameter, at which the core behaves exactly as the document says (R5; 92_eei_decisions.md). -/
def Config.standard : Config where
  memWords := 9223372036854775808
  overflowPolicy := .fault
  unusedDigitsFault := false
  outCapacity := none

/-- The ranges R5 gives the parameters: 1 ≤ `MEM_WORDS` ≤ 2^63 and 1 ≤ `OUT_CAPACITY` ≤ ∞. -/
abbrev Config.valid (c : Config) : Prop :=
  1 ≤ c.memWords ∧ c.memWords ≤ 9223372036854775808 ∧ c.outCapacity ≠ some 0

end Sys2Proof
end

