-- ==== Sys2Proof/Syntax.lean ====
section
/-! DEFINITION. The instruction set as syntax: addressing modes, operands and the ten instructions (R53, R55). -/

namespace Sys2Proof

/-- An addressing mode (R55): Position (0), Immediate (1), Relative (2). -/
inductive Mode where
  | position
  | immediate
  | relative
  deriving DecidableEq, Repr

/-- An operand: a mode and the raw parameter it qualifies (R55). -/
structure Operand where
  mode : Mode
  raw : Word
  deriving DecidableEq, Repr

/-- The ten opcodes (R53). -/
inductive Opcode where
  | add
  | multiply
  | input
  | output
  | jumpIfTrue
  | jumpIfFalse
  | lessThan
  | equals
  | adjustBase
  | halt
  deriving DecidableEq, Repr

/-- A decoded instruction: one constructor per row of the opcode table (R53), with its operands in the table's order. -/
inductive Instr where
  | add (a b dst : Operand)
  | multiply (a b dst : Operand)
  | input (dst : Operand)
  | output (a : Operand)
  | jumpIfTrue (cond target : Operand)
  | jumpIfFalse (cond target : Operand)
  | lessThan (a b dst : Operand)
  | equals (a b dst : Operand)
  | adjustBase (a : Operand)
  | halt
  deriving DecidableEq, Repr

end Sys2Proof
end

