-- ==== Sys2Proof/Machine/State.lean ====
section
/-! DEFINITION. The architectural state (R10 to R17, R21) as plain data, the outcomes of a step, and the state after reset. -/

namespace Sys2Proof.Machine

/-- The eight failure reasons of the core (R140). -/
inductive FailReason where
  | decodeError
  | invalidWriteTarget
  | outOfRangeJump
  | numericOverflow
  | inputExhausted
  | invalidAddress
  | memoryBounds
  | outputFull
  deriving DecidableEq, Repr

/-- A failure: its reason and the one word of information recorded with it (R15, R140). -/
structure Failure where
  reason : FailReason
  info : Word
  deriving DecidableEq, Repr

/-- `STATUS` (R15). -/
inductive Status where
  | running
  | halted
  | failed (f : Failure)
  deriving DecidableEq, Repr

/-- `MEM` with its storage length `LEN` (R11, R12): the stored cells that are not 0, by rising address. A cell that is not
listed, or whose address is `len` or more, reads as 0 (R30). A cell is one word; there is no byte view (R35; log 1). -/
structure Memory where
  cells : List (Nat × Word)
  len : Nat
  deriving DecidableEq, Repr

/-- The architectural state: the six elements of R10, and the machine's parameters, which no step changes (log 2). -/
structure State where
  /-- `MEM` and `LEN` (R11, R12). -/
  mem : Memory
  /-- `IP`, a 64-bit register whose sign bit is 0 in every state a run reaches (R13; log 8). -/
  ip : Word
  /-- `RB`, the relative base (R14). -/
  rb : Word
  /-- `STATUS` (R15). -/
  status : Status
  /-- `IN`, empty or one word (R16). -/
  input : Option Word
  /-- `OUT`, oldest element first (R17). -/
  output : List Word
  /-- The implementation parameters (R5). -/
  config : Config
  deriving DecidableEq, Repr

/-- Why no step exists. Raised by `step` alone, in the two terminal states (R70, R153); no instruction ends in one. -/
inductive Fault where
  /-- `step` of a machine whose `STATUS` is `Halted`: no step is defined from it (R70). Safe: the hardware takes none. -/
  | halted
  /-- `step` of a machine whose `STATUS` is `Failed`: no step is defined from it (R70). Safe: the hardware takes none. -/
  | failed
  deriving DecidableEq, Repr

/-- Why an instruction has no meaning. -/
inductive Refusal where
  /-- An instruction the model gives no meaning, by its mnemonic. Raised by no arm of `exec`: all ten are modelled. Safe. -/
  | notModelled (mnemonic : String)
  deriving DecidableEq, Repr

/-- The machine right after reset, before the host has loaded anything (R21, R170), with the default parameters of R5 (log 2). -/
def State.reset : State where
  mem := ⟨[], 0⟩
  ip := 0
  rb := 0
  status := .running
  input := none
  output := []
  config := Config.standard

end Sys2Proof.Machine
end

