-- ==== Sys2Proof/Machine/Ops.lean ====
section
/-! DEFINITION. The named operations over the state: memory read and write (R30, R31), raising a failure (R150), the
fall-through address (R73) and the end of an instruction. -/

namespace Sys2Proof.Machine

/-- The numeric code of a failure reason (R140). -/
def FailReason.code : FailReason → Nat
  | .decodeError => 1
  | .invalidWriteTarget => 2
  | .outOfRangeJump => 3
  | .numericOverflow => 4
  | .inputExhausted => 5
  | .invalidAddress => 6
  | .memoryBounds => 7
  | .outputFull => 8

/-- `wrap64(v)`: the word congruent to `v` modulo 2^64 (R7). -/
def wrap64 (v : Int) : Word :=
  BitVec.ofInt 64 v

/-- The value listed for an address, 0 if none is. -/
def lookupCell (a : Nat) : List (Nat × Word) → Word
  | [] => 0
  | (b, v) :: cs => if b = a then v else lookupCell a cs

/-- A cell put in front of the first cell of a greater address. -/
def insertCell (a : Nat) (v : Word) : List (Nat × Word) → List (Nat × Word)
  | [] => [(a, v)]
  | (b, u) :: cs => if a < b then (a, v) :: (b, u) :: cs else (b, u) :: insertCell a v cs

/-- The cells with the one at `a` replaced by `v`; a 0 is not listed, so that equal memories are equal lists. -/
def setCell (a : Nat) (v : Word) (cells : List (Nat × Word)) : List (Nat × Word) :=
  if v = 0 then cells.filter (fun c => c.1 ≠ a) else insertCell a v (cells.filter (fun c => c.1 ≠ a))

/-- `MemRead(addr, 1)` (R30): the cell below `LEN`, 0 at or beyond it. -/
def Memory.read (m : Memory) (a : Nat) : Word :=
  if a < m.len then lookupCell a m.cells else 0

/-- `MemWrite(addr, 1, v)` (R31): every cell from the old `LEN` up to `addr` becomes 0, `LEN` grows to `addr + 1` where it is
not above `addr` already, and the cell takes `v`. -/
def Memory.write (m : Memory) (a : Nat) (v : Word) : Memory where
  cells := setCell a v (m.cells.filter (fun c => c.1 < m.len))
  len := if m.len ≤ a then a + 1 else m.len

/-- The canonical form: addresses strictly rising, no 0 listed, every listed address below `LEN` (R12). -/
abbrev Memory.wf (m : Memory) : Prop :=
  m.cells.Pairwise (fun c d => c.1 < d.1) ∧ (∀ c ∈ m.cells, c.2 ≠ 0) ∧ (∀ c ∈ m.cells, c.1 < m.len)

/-- The listed cells of an image whose first word is at `a`. -/
def imageCells (a : Nat) : List Word → List (Nat × Word)
  | [] => []
  | w :: ws => if w = 0 then imageCells (a + 1) ws else (a, w) :: imageCells (a + 1) ws

/-- The memory that holds an image from address 0, with `LEN` its number of words (R172). -/
def Memory.ofImage (image : List Word) : Memory where
  cells := imageCells 0 image
  len := image.length

/-- `MemRead` on the state. -/
def State.memRead (s : State) (a : Nat) : Word :=
  s.mem.read a

/-- `MemWrite` on the state; nothing but `MEM` and `LEN` changes (R31). -/
def State.memWrite (s : State) (a : Nat) (v : Word) : State :=
  { s with mem := s.mem.write a v }

/-- `IP <- target` (R7). -/
def State.setIp (s : State) (target : Word) : State :=
  { s with ip := target }

/-- `RB <- v` (R7). -/
def State.setRb (s : State) (v : Word) : State :=
  { s with rb := v }

/-- `OUT <- append(OUT, v)` (R7). -/
def State.append (s : State) (v : Word) : State :=
  { s with output := s.output ++ [v] }

/-- `STATUS <- Halted` (R135). -/
def State.halt (s : State) : State :=
  { s with status := .halted }

/-- `raise`: the machine's one form of exception. `STATUS` becomes `Failed`, and nothing else changes (R150). -/
def State.raise (s : State) (f : Failure) : State :=
  { s with status := .failed f }

/-- The end of an instruction: the state it computed, or the failure it raised, in either case a next state (R77, R150). -/
def State.settle (s : State) (r : Except Failure State) : Host.Outcome State Fault Refusal :=
  match r with
  | .ok t => .next t
  | .error f => .next (s.raise f)

/-- The fall-through address `IP + 1 + n`, which must not exceed `ADDR_MAX` (R73, D12). -/
def State.fallThrough (s : State) (n : Nat) : Except Failure Word :=
  if s.ip.toNat + 1 + n ≤ addrMax then .ok (BitVec.ofNat 64 (s.ip.toNat + 1 + n))
  else .error ⟨.invalidAddress, wrap64 (s.ip.toNat + 1 + n : Nat)⟩

end Sys2Proof.Machine
end

