-- ==== Sys2Proof/Machine/Flags.lean ====
section
/-! DEFINITION. The machine has no flags (R18). In their place: the overflow rule that brings an exact result back into a
word (R8), and the truth value a comparison stores (R122). -/

namespace Sys2Proof.Machine

/-- `arith(v)` (R8): an exact result in range is the word; out of range it is a `NumericOverflow` under the policy `Fault`, the
wrapped word under `Wrap` (D2). -/
def arith (policy : OverflowPolicy) (v : Int) : Except Failure Word :=
  if intMin ≤ v ∧ v ≤ intMax then .ok (BitVec.ofInt 64 v)
  else
    match policy with
    | .fault => .error ⟨.numericOverflow, wrap64 v⟩
    | .wrap => .ok (wrap64 v)

/-- The word a comparison stores: 1 if it holds, 0 if not (R120, R121). -/
def truthWord (p : Prop) [Decidable p] : Word :=
  if p then 1 else 0

end Sys2Proof.Machine
end

