-- ==== Sys2Proof/Machine/Operands.lean ====
section
/-! DEFINITION. The Operand Resolver: effective address, source operand, destination operand (R74 to R76). -/

namespace Sys2Proof.Machine

/-- `EA(k)`: the exact effective address of an operand, which an Immediate operand does not have (R74). -/
def State.effectiveAddress (s : State) (o : Operand) : Option Int :=
  match o.mode with
  | .position => some o.raw.toInt
  | .immediate => none
  | .relative => some (s.rb.toInt + o.raw.toInt)

/-- The address an exact integer stands for; `InvalidAddress` when it is negative or above `ADDR_MAX` (R74, D4). -/
def checkAddress (ea : Int) : Except Failure Nat :=
  if 0 ≤ ea ∧ ea ≤ addrMax then .ok ea.toNat else .error ⟨.invalidAddress, wrap64 ea⟩

/-- `ReadOperand(k)` (R75): the raw parameter of an Immediate operand, the cell at the effective address otherwise. -/
def State.readOperand (s : State) (o : Operand) : Except Failure Word :=
  match s.effectiveAddress o with
  | none => .ok o.raw
  | some ea => do
    let a ← checkAddress ea
    return s.memRead a

/-- `WriteTarget(k)` (R76): the address of the cell a destination operand names. -/
def State.writeTarget (s : State) (o : Operand) : Except Failure Nat :=
  match s.effectiveAddress o with
  | none => .error ⟨.invalidWriteTarget, o.raw⟩
  | some ea => do
    let a ← checkAddress ea
    if a < s.config.memWords then return a else throw ⟨.memoryBounds, BitVec.ofNat 64 a⟩

/-- The common course of the three-operand instructions (R77, R79): the top-of-space check, both sources, the destination, the
instruction's own result, then the one write and the advance. -/
def State.binary (s : State) (a b dst : Operand) (result : Word → Word → Except Failure Word) :
    Host.Outcome State Fault Refusal :=
  s.settle do
    let next ← s.fallThrough 3
    let v1 ← s.readOperand a
    let v2 ← s.readOperand b
    let t ← s.writeTarget dst
    let r ← result v1 v2
    return (s.memWrite t r).setIp next

/-- The common course of the two jumps (R110, R111): both sources are resolved, the target of an untaken jump too (D8); a taken
jump to a negative target is an `OutOfRangeJump` (R113). -/
def State.jump (s : State) (cond target : Operand) (taken : Word → Bool) : Host.Outcome State Fault Refusal :=
  s.settle do
    let next ← s.fallThrough 2
    let v1 ← s.readOperand cond
    let v2 ← s.readOperand target
    if taken v1 then
      if v2.toInt < 0 then throw ⟨.outOfRangeJump, v2⟩ else return s.setIp v2
    else return s.setIp next

end Sys2Proof.Machine
end

