-- ==== Sys2Proof/Machine/Arithmetic.lean ====
section
/-! DEFINITION. The meanings of Add and Multiply (41_arithmetic.md). -/

namespace Sys2Proof.Machine

/-- Add: `dst := a + b`, the exact sum through `arith` (R90). -/
def execAdd (a b dst : Operand) (s : State) : Host.Outcome State Fault Refusal :=
  s.binary a b dst fun v1 v2 => arith s.config.overflowPolicy (v1.toInt + v2.toInt)

/-- Multiply: `dst := a * b`, the exact product through `arith` (R91). -/
def execMultiply (a b dst : Operand) (s : State) : Host.Outcome State Fault Refusal :=
  s.binary a b dst fun v1 v2 => arith s.config.overflowPolicy (v1.toInt * v2.toInt)

end Sys2Proof.Machine
end

