-- ==== Sys2Proof/Machine/Compare.lean ====
section
/-! DEFINITION. The meanings of LessThan and Equals (44_compare.md). -/

namespace Sys2Proof.Machine

/-- LessThan: `dst := 1` if `a < b` as signed numbers, else 0 (R120). -/
def execLessThan (a b dst : Operand) (s : State) : Host.Outcome State Fault Refusal :=
  s.binary a b dst fun v1 v2 => .ok (truthWord (v1.toInt < v2.toInt))

/-- Equals: `dst := 1` if `a = b`, else 0 (R121). -/
def execEquals (a b dst : Operand) (s : State) : Host.Outcome State Fault Refusal :=
  s.binary a b dst fun v1 v2 => .ok (truthWord (v1.toInt = v2.toInt))

end Sys2Proof.Machine
end

