-- ==== Sys2Proof/Machine/InputOutput.lean ====
section
/-! DEFINITION. The meanings of Input and Output (42_io.md). -/

namespace Sys2Proof.Machine

/-- Input: `dst := IN`, which is kept; `InputExhausted` when the host supplied no value (R101). -/
def execInput (dst : Operand) (s : State) : Host.Outcome State Fault Refusal :=
  s.settle do
    let next ← s.fallThrough 1
    let t ← s.writeTarget dst
    match s.input with
    | none => throw ⟨.inputExhausted, 0⟩
    | some v => return (s.memWrite t v).setIp next

/-- Output: `a` is appended to `OUT`; `OutputFull` when `OUT` already has `OUT_CAPACITY` elements (R102). -/
def execOutput (a : Operand) (s : State) : Host.Outcome State Fault Refusal :=
  s.settle do
    let next ← s.fallThrough 1
    let v ← s.readOperand a
    if s.config.outCapacity = some s.output.length then throw ⟨.outputFull, v⟩
    else return (s.append v).setIp next

end Sys2Proof.Machine
end

