-- ==== Sys2Proof/Machine/Jumps.lean ====
section
/-! DEFINITION. The meanings of JumpIfTrue and JumpIfFalse (43_jumps.md). -/

namespace Sys2Proof.Machine

/-- JumpIfTrue: `IP := target` when `cond` is not 0 (R110). -/
def execJumpIfTrue (cond target : Operand) (s : State) : Host.Outcome State Fault Refusal :=
  s.jump cond target fun v => v != 0

/-- JumpIfFalse: `IP := target` when `cond` is 0 (R111). -/
def execJumpIfFalse (cond target : Operand) (s : State) : Host.Outcome State Fault Refusal :=
  s.jump cond target fun v => v == 0

end Sys2Proof.Machine
end

