-- ==== Sys2Proof/Machine/RelativeBase.lean ====
section
/-! DEFINITION. The meanings of AdjustBase (45_relative_base.md). -/

namespace Sys2Proof.Machine

/-- AdjustBase: `RB := RB + a`, the exact sum through `arith`; `a` is resolved with the old `RB` (R130). -/
def execAdjustBase (a : Operand) (s : State) : Host.Outcome State Fault Refusal :=
  s.settle do
    let next ← s.fallThrough 1
    let v ← s.readOperand a
    let r ← arith s.config.overflowPolicy (s.rb.toInt + v.toInt)
    return (s.setRb r).setIp next

end Sys2Proof.Machine
end

