-- ==== Sys2Proof/Machine/Stop.lean ====
section
/-! DEFINITION. The meanings of Halt (46_halt.md). -/

namespace Sys2Proof.Machine

/-- Halt: `STATUS := Halted`, `IP` not advanced; it resolves nothing and makes no check, so it runs at any `IP` (R135). -/
def execHalt (s : State) : Host.Outcome State Fault Refusal :=
  s.settle (.ok s.halt)

end Sys2Proof.Machine
end

