-- ==== Sys2Proof/Decode.lean ====
section
/-! DEFINITION. The decoder (R50 to R59, R72), the encoder written from the same tables, and the host's view of an
opcode-table word. The fields of an instruction word are DECIMAL digits (R51). -/

namespace Sys2Proof

/-- The opcode number (R53). -/
def Opcode.number : Opcode → Nat
  | .add => 1
  | .multiply => 2
  | .input => 3
  | .output => 4
  | .jumpIfTrue => 5
  | .jumpIfFalse => 6
  | .lessThan => 7
  | .equals => 8
  | .adjustBase => 9
  | .halt => 99

/-- The opcode of a number; no other number is recognized (R56). -/
def Opcode.ofNumber : Nat → Option Opcode
  | 1 => some .add
  | 2 => some .multiply
  | 3 => some .input
  | 4 => some .output
  | 5 => some .jumpIfTrue
  | 6 => some .jumpIfFalse
  | 7 => some .lessThan
  | 8 => some .equals
  | 9 => some .adjustBase
  | 99 => some .halt
  | _ => none

/-- `arity(op)`, the number of operands (R53). -/
def Opcode.arity : Opcode → Nat
  | .add => 3
  | .multiply => 3
  | .input => 1
  | .output => 1
  | .jumpIfTrue => 2
  | .jumpIfFalse => 2
  | .lessThan => 3
  | .equals => 3
  | .adjustBase => 1
  | .halt => 0

/-- `writes(op)`, the position of the destination operand, if there is one (R54). -/
def Opcode.writes : Opcode → Option Nat
  | .add => some 3
  | .multiply => some 3
  | .input => some 1
  | .output => none
  | .jumpIfTrue => none
  | .jumpIfFalse => none
  | .lessThan => some 3
  | .equals => some 3
  | .adjustBase => none
  | .halt => none

/-- The opcode of an instruction. -/
def Instr.opcode : Instr → Opcode
  | .add _ _ _ => .add
  | .multiply _ _ _ => .multiply
  | .input _ => .input
  | .output _ => .output
  | .jumpIfTrue _ _ => .jumpIfTrue
  | .jumpIfFalse _ _ => .jumpIfFalse
  | .lessThan _ _ _ => .lessThan
  | .equals _ _ _ => .equals
  | .adjustBase _ => .adjustBase
  | .halt => .halt

/-- The operands of an instruction, operand 1 first. -/
def Instr.operands : Instr → List Operand
  | .add a b dst => [a, b, dst]
  | .multiply a b dst => [a, b, dst]
  | .input dst => [dst]
  | .output a => [a]
  | .jumpIfTrue cond target => [cond, target]
  | .jumpIfFalse cond target => [cond, target]
  | .lessThan a b dst => [a, b, dst]
  | .equals a b dst => [a, b, dst]
  | .adjustBase a => [a]
  | .halt => []

/-- The destination operand of an instruction, the one at position `writes(op)` (R54). -/
def Instr.destination (i : Instr) : Option Operand :=
  match i.opcode.writes with
  | some k => i.operands[k - 1]?
  | none => none

/-- The source operands of an instruction: every operand but the destination (R54). -/
def Instr.sources (i : Instr) : List Operand :=
  match i.opcode.writes with
  | some k => i.operands.eraseIdx (k - 1)
  | none => i.operands

/-- The number of words an instruction occupies, `1 + arity` (R50, R52). -/
def Instr.length (i : Instr) : Nat :=
  1 + i.opcode.arity

/-- `digit(w, p)`: the decimal digit of weight 10^p (R6). -/
def digit (w p : Nat) : Nat :=
  w / 10 ^ p % 10

/-- The mode number (R55). -/
def Mode.number : Mode → Nat
  | .position => 0
  | .immediate => 1
  | .relative => 2

/-- The mode of a digit; 3 to 9 are illegal (R57). -/
def Mode.ofDigit : Nat → Option Mode
  | 0 => some .position
  | 1 => some .immediate
  | 2 => some .relative
  | _ => none

/-- Why the decoder refuses a word. The first four make a step fail with `DecodeError` (R72). -/
inductive Reject where
  /-- The word is negative (R56, D6). -/
  | negativeWord
  /-- The opcode number is not in the table (R56). -/
  | unknownOpcode (op : Nat)
  /-- The mode digit of operand `k` is not 0, 1 or 2 (R57). -/
  | illegalMode (k : Nat)
  /-- A digit that belongs to no operand is not 0, under `UNUSED_DIGITS_FAULT` (R59). -/
  | unusedDigit
  /-- A list of words ends before the instruction does; never the case in memory, which has no end (R30). -/
  | truncated
  deriving DecidableEq, Repr

/-- Operand `k` of the word `w`: its mode digit `digit(w, k + 1)` with the raw parameter `p k` (R55). -/
def decodeOperand (w : Nat) (p : Nat → Word) (k : Nat) : Except Reject Operand :=
  match Mode.ofDigit (digit w (k + 1)) with
  | some m => .ok ⟨m, p k⟩
  | none => .error (.illegalMode k)

/-- Step (5) of R72: with `UNUSED_DIGITS_FAULT`, `w div 10^(n+2)` must be 0. -/
def checkUnused (strict : Bool) (w n : Nat) : Except Reject Unit :=
  if strict && w / 10 ^ (n + 2) != 0 then .error .unusedDigit else .ok ()

/-- An instruction without operands (format F0). -/
def decode0 (strict : Bool) (w : Nat) (make : Instr) : Except Reject Instr := do
  checkUnused strict w 0
  return make

/-- An instruction with one operand (format F1). -/
def decode1 (strict : Bool) (w : Nat) (p : Nat → Word) (make : Operand → Instr) : Except Reject Instr := do
  let x ← decodeOperand w p 1
  checkUnused strict w 1
  return make x

/-- An instruction with two operands (format F2). -/
def decode2 (strict : Bool) (w : Nat) (p : Nat → Word) (make : Operand → Operand → Instr) :
    Except Reject Instr := do
  let x ← decodeOperand w p 1
  let y ← decodeOperand w p 2
  checkUnused strict w 2
  return make x y

/-- An instruction with three operands (format F3). -/
def decode3 (strict : Bool) (w : Nat) (p : Nat → Word) (make : Operand → Operand → Operand → Instr) :
    Except Reject Instr := do
  let x ← decodeOperand w p 1
  let y ← decodeOperand w p 2
  let z ← decodeOperand w p 3
  checkUnused strict w 3
  return make x y z

/-- Decoding of an instruction word `w` whose k-th raw parameter is `p k`, in the order of R72. `strict` is
`UNUSED_DIGITS_FAULT`. Only `w` decides whether decoding succeeds; a raw parameter never does (R72). -/
def decode (strict : Bool) (w : Word) (p : Nat → Word) : Except Reject Instr :=
  if w.toInt < 0 then .error .negativeWord
  else
    match Opcode.ofNumber (w.toNat % 100) with
    | none => .error (.unknownOpcode (w.toNat % 100))
    | some .add => decode3 strict w.toNat p .add
    | some .multiply => decode3 strict w.toNat p .multiply
    | some .input => decode1 strict w.toNat p .input
    | some .output => decode1 strict w.toNat p .output
    | some .jumpIfTrue => decode2 strict w.toNat p .jumpIfTrue
    | some .jumpIfFalse => decode2 strict w.toNat p .jumpIfFalse
    | some .lessThan => decode3 strict w.toNat p .lessThan
    | some .equals => decode3 strict w.toNat p .equals
    | some .adjustBase => decode1 strict w.toNat p .adjustBase
    | some .halt => decode0 strict w.toNat .halt

/-- Decoding of a list of words: the instruction at its head and the words after it (R50). -/
def decodeWords (strict : Bool) : List Word → Except Reject (Instr × List Word)
  | [] => .error .truncated
  | w :: ps =>
    match decode strict w (fun k => ps.getD (k - 1) 0) with
    | .error r => .error r
    | .ok i => if ps.length < i.opcode.arity then .error .truncated else .ok (i, ps.drop i.opcode.arity)

/-- The mode digits of operands at their decimal weights, the k-th at 10^(k+1) (R51), the first operand at `weight`. -/
def modeDigits (weight : Nat) : List Operand → Nat
  | [] => 0
  | o :: os => weight * o.mode.number + modeDigits (weight * 10) os

/-- The canonical instruction word: the opcode number and the mode digits, unused digits 0 (R51, R61). -/
def Instr.headWord (i : Instr) : Nat :=
  i.opcode.number + modeDigits 100 i.operands

/-- The words of an instruction: the instruction word, then the raw parameters in ascending addresses (R50). -/
def encode (i : Instr) : List Word :=
  BitVec.ofNat 64 i.headWord :: i.operands.map Operand.raw

/-- The four 64-bit words that the number `w` of `nbits` bits stands for, the first in the least significant bits; bits at and
above `nbits` are 0. The numbering is the host's; the spec's words have no serial binary form (R35; log 5). -/
def tableWords (nbits w : Nat) : List Word :=
  let v := w % 2 ^ nbits
  [BitVec.ofNat 64 v, BitVec.ofNat 64 (v / 2 ^ 64), BitVec.ofNat 64 (v / 2 ^ 128), BitVec.ofNat 64 (v / 2 ^ 192)]

/-- The instruction the decoder reads from an instruction whose bits are `w`, under the default `UNUSED_DIGITS_FAULT` (log 5). -/
def decodeTableWord (nbits w : Nat) : Option Instr :=
  match decodeWords false (tableWords nbits w) with
  | .ok (i, _) => some i
  | .error _ => none

end Sys2Proof
end

