-- ==== Sys2Proof/Machine/Fetch.lean ====
section
/-! DEFINITION. Fetch and decode (R71, R72), and placing the words of an instruction where it is fetched. -/

namespace Sys2Proof.Machine

/-- The instruction word, an ordinary read at `IP` (R71). -/
def State.fetchWord (s : State) : Word :=
  s.memRead s.ip.toNat

/-- The decoded instruction at `IP`, its raw parameters read from `IP + 1` on (R71 to R73); a refused word is a
`DecodeError` that carries it (R56, R57, R140). -/
def State.fetch (s : State) : Except Failure Instr :=
  match decode s.config.unusedDigitsFault s.fetchWord (fun k => s.memRead (s.ip.toNat + k)) with
  | .ok i => .ok i
  | .error _ => .error ⟨.decodeError, s.fetchWord⟩

/-- Words written to ascending addresses from `a`, as far as the memory reaches (R33). -/
def State.placeWords (s : State) (a : Nat) : List Word → State
  | [] => s
  | w :: ws => if a < s.config.memWords then (s.memWrite a w).placeWords (a + 1) ws else s

end Sys2Proof.Machine
end

