-- ==== Sys2Proof/Machine/Step.lean ====
section
/-! DEFINITION. One step of the Execution Engine (R70, R79), and the host's way of placing an instruction. -/

namespace Sys2Proof.Machine

/-- One step (R79). It is defined only while `STATUS` is `Running` (R70); an instruction word the decoder refuses fails with
`DecodeError` (R72). -/
def step (s : State) : Host.Outcome State Fault Refusal :=
  match s.status with
  | .running =>
    match s.fetch with
    | .ok i => exec i s
    | .error f => .next (s.raise f)
  | .halted => .fault .halted
  | .failed _ => .fault .failed

/-- The state with an instruction stored at `IP` and `STATUS` running, so that the next step runs it. It stands for the host's
load (R172; log 4, log 5). -/
def State.withFetchWord (s : State) (nbits w : Nat) : State :=
  { s with status := .running }.placeWords s.ip.toNat (tableWords nbits w)

end Sys2Proof.Machine
end

