-- ==== Sys2Proof/Machine/ProgramText.lean ====
section
/-! DEFINITION. The host's text forms: program text to image (R64 to R66) and the listing of an instruction (R67). They are no
part of the core (R4); text is a list of characters. -/

namespace Sys2Proof.Machine

/-- `ParseError` (R65): the token that is no valid signed integer of 64 bits. The host's, never a value of `STATUS`. -/
inductive ParseError where
  | invalidToken (token : List Char)
  deriving DecidableEq, Repr

/-- The white space of R64: space, tab, carriage return, line feed (D21). -/
def isBlank (c : Char) : Bool :=
  c == ' ' || c == '\t' || c == '\r' || c == '\n'

/-- The text split at its commas; n commas give n + 1 tokens (R64). -/
def splitCommas : List Char → List (List Char)
  | [] => [[]]
  | c :: cs =>
    if c = ',' then [] :: splitCommas cs
    else
      match splitCommas cs with
      | [] => [[c]]
      | t :: ts => (c :: t) :: ts

/-- A token without the white space at both its ends (R64). -/
def trimBlanks (t : List Char) : List Char :=
  ((t.dropWhile isBlank).reverse.dropWhile isBlank).reverse

/-- The value of a decimal digit. -/
def digitValue (c : Char) : Option Nat :=
  if '0'.toNat ≤ c.toNat ∧ c.toNat ≤ '9'.toNat then some (c.toNat - '0'.toNat) else none

/-- The value of decimal digits read after the value `n`; leading zeros count for nothing (R64). -/
def digitsValue (n : Nat) : List Char → Option Nat
  | [] => some n
  | c :: cs =>
    match digitValue c with
    | some d => digitsValue (n * 10 + d) cs
    | none => none

/-- The value of one or more decimal digits (R64). -/
def numeralValue (cs : List Char) : Option Nat :=
  match cs with
  | [] => none
  | c :: rest => digitsValue 0 (c :: rest)

/-- The value of an optional `-` and one or more digits; no `+` (R64). -/
def integerValue (cs : List Char) : Option Int :=
  match cs with
  | '-' :: ds => (numeralValue ds).map (fun n => -(n : Int))
  | ds => (numeralValue ds).map (fun n => (n : Int))

/-- The word a token stands for; a numeral out of range is no valid word (R64). -/
def parseToken (t : List Char) : Except ParseError Word :=
  match integerValue (trimBlanks t) with
  | some v => if intMin ≤ v ∧ v ≤ intMax then .ok (BitVec.ofInt 64 v) else .error (.invalidToken t)
  | none => .error (.invalidToken t)

/-- The words of tokens, in order (R66). -/
def parseTokens : List (List Char) → Except ParseError (List Word)
  | [] => .ok []
  | t :: ts => do
    let w ← parseToken t
    let ws ← parseTokens ts
    return w :: ws

/-- The program image of a program text (R64, R66). -/
def parseProgram (text : List Char) : Except ParseError (List Word) :=
  parseTokens (splitCommas text)

/-- The decimal text of a word, the only serial form of one (R35, R64). -/
def wordText (w : Word) : List Char :=
  if w.toInt < 0 then '-' :: Nat.toDigits 10 w.toInt.natAbs else Nat.toDigits 10 w.toInt.natAbs

/-- The program text of an image: its words, separated by commas (R64). -/
def programText : List Word → List Char
  | [] => []
  | [w] => wordText w
  | w :: v :: ws => wordText w ++ ',' :: programText (v :: ws)

/-- An operand as a listing writes it: `[n]`, `#n`, `[RB+n]` or `[RB-n]` (R67). -/
def operandListing (o : Operand) : List Char :=
  match o.mode with
  | .position => '[' :: wordText o.raw ++ [']']
  | .immediate => '#' :: wordText o.raw
  | .relative =>
    if o.raw.toInt < 0 then '[' :: 'R' :: 'B' :: wordText o.raw ++ [']']
    else '[' :: 'R' :: 'B' :: '+' :: wordText o.raw ++ [']']

/-- The document's name of an opcode (R53). -/
def opcodeName : Opcode → String
  | .add => "Add"
  | .multiply => "Multiply"
  | .input => "Input"
  | .output => "Output"
  | .jumpIfTrue => "JumpIfTrue"
  | .jumpIfFalse => "JumpIfFalse"
  | .lessThan => "LessThan"
  | .equals => "Equals"
  | .adjustBase => "AdjustBase"
  | .halt => "Halt"

/-- The operands of a listing, separated by a comma and a space (R67). -/
def operandsListing : List Operand → List Char
  | [] => []
  | [o] => operandListing o
  | o :: q :: os => operandListing o ++ ',' :: ' ' :: operandsListing (q :: os)

/-- `Name operand, operand, …` (R67). -/
def instrListing (i : Instr) : List Char :=
  match i.operands with
  | [] => (opcodeName i.opcode).toList
  | os => (opcodeName i.opcode).toList ++ ' ' :: operandsListing os

/-- A word that is data, `.word n` (R67). -/
def dataListing (w : Word) : List Char :=
  '.' :: 'w' :: 'o' :: 'r' :: 'd' :: ' ' :: wordText w

/-- The label in front of the word at an address, `@a:` (R67). -/
def labelListing (a : Nat) : List Char :=
  '@' :: Nat.toDigits 10 a ++ [':']

end Sys2Proof.Machine
end

