-- ==== Sys2Proof/Machine/Launch.lean ====
section
/-! DEFINITION. The host's operations before and after a run (R81, R170 to R175). They stand beside `step`; no move of the host
exists during a run (R177; log 9). -/

namespace Sys2Proof.Machine

/-- Why the host refuses to launch; none of these is a value of `STATUS` (R65, R173). -/
inductive LaunchError where
  /-- The program text does not parse (R65). -/
  | parse (e : ParseError)
  /-- The image has more than `MEM_WORDS` words (R173). -/
  | imageTooLarge
  /-- A patch address is not below `MEM_WORDS` (R173), or is no address (R174). -/
  | patchOutOfBounds (a : Nat)
  deriving DecidableEq, Repr

/-- Reset: every element at its value of R21; the machine keeps its parameters (R170). -/
def State.restart (s : State) : State :=
  { State.reset with config := s.config }

/-- Load: word i of the image at address i, `LEN` the number of words, every other cell 0 (R172, R173). -/
def State.load (s : State) (image : List Word) : Except LaunchError State :=
  if image.length ≤ s.config.memWords then .ok { s with mem := Memory.ofImage image } else .error .imageTooLarge

/-- One patch, with the effect of a `MemWrite` (R174). -/
def State.patch (s : State) (a : Nat) (v : Word) : Except LaunchError State :=
  if a ≤ addrMax ∧ a < s.config.memWords then .ok (s.memWrite a v) else .error (.patchOutOfBounds a)

/-- Patches in the order given; a later one of the same address wins (R174). -/
def State.patchAll (s : State) : List (Nat × Word) → Except LaunchError State
  | [] => .ok s
  | p :: ps => do
    let t ← s.patch p.1 p.2
    t.patchAll ps

/-- The host fills `IN`; supplying a value again replaces it (R175). -/
def State.supplyInput (s : State) (v : Word) : State :=
  { s with input := some v }

/-- The launch state: reset, the image loaded, the patches applied, the input value supplied or not (R172). -/
def launch (c : Config) (image : List Word) (patches : List (Nat × Word)) (input : Option Word) :
    Except LaunchError State := do
  let loaded ← ({ State.reset with config := c } : State).load image
  let patched ← loaded.patchAll patches
  match input with
  | none => return patched
  | some v => return patched.supplyInput v

/-- The launch state from program text (R66, R171). -/
def launchText (c : Config) (text : List Char) (patches : List (Nat × Word)) (input : Option Word) :
    Except LaunchError State :=
  match parseProgram text with
  | .error e => .error (.parse e)
  | .ok image => launch c image patches input

/-- The primary answer of a run, `Memory.read(0)` (R81, R171). -/
def State.answer (s : State) : Word :=
  s.memRead 0

end Sys2Proof.Machine
end

