-- ==== Sys2Proof/Machine/Run.lean ====
section
/-! DEFINITION. The host's run and single step (R80, R164, R176). -/

namespace Sys2Proof.Machine

/-- At most `limit` steps, for as long as a step exists (R70, R80). `limit` is the host's (`STEP_LIMIT`, D18): the core counts
nothing, and a machine the host stops stepping is still `Running`. -/
def State.run : Nat → State → State
  | 0, s => s
  | n + 1, s =>
    match step s with
    | .next t => t.run n
    | .fault _ => s
    | .refused _ => s

end Sys2Proof.Machine
end

