-- ==== Sys2Proof/Safety.lean ====
section
/-! DEFINITION. What holds in every state a run reaches, in the terms the claims use (R20). -/

namespace Sys2Proof.Machine

/-- The invariant of R20, with the canonical form of memory: the parameters are in their ranges, `LEN` ≤ `MEM_WORDS`, `IP` is an
address (its sign bit is 0), and `OUT` is within its capacity. `RB`, cells and elements of `OUT` are words by their type. -/
abbrev State.inv (s : State) : Prop :=
  s.config.valid ∧ s.mem.wf ∧ s.mem.len ≤ s.config.memWords ∧ s.ip.toNat ≤ addrMax ∧
    s.config.outCapacity.all (fun n => s.output.length ≤ n) = true

/-- The cell a source operand reads, none for an Immediate operand or an address outside the address space (`S_k` of R45). -/
def State.sourceCell (s : State) (o : Operand) : List Nat :=
  match s.effectiveAddress o with
  | none => []
  | some ea => if 0 ≤ ea ∧ ea ≤ addrMax then [ea.toNat] else []

/-- The cells a step of `i` reads: its own words and the cells of its source operands (R45). -/
def State.readCells (s : State) (i : Instr) : List Nat :=
  (List.range i.length).map (fun k => s.ip.toNat + k) ++ i.sources.flatMap s.sourceCell

/-- A result computed from the values of two source operands, none where one of them is not readable or the result fails. -/
def State.combine (s : State) (a b : Operand) (result : Word → Word → Except Failure Word) : Option Word :=
  match s.readOperand a, s.readOperand b with
  | .ok x, .ok y => (result x y).toOption
  | _, _ => none

/-- The word an instruction stores in its destination once its operands are resolved (R90, R91, R101, R120, R121): none where a
source is not readable, the result fails, or there is no destination. -/
def State.storedWord (s : State) : Instr → Option Word
  | .add a b _ => s.combine a b fun x y => arith s.config.overflowPolicy (x.toInt + y.toInt)
  | .multiply a b _ => s.combine a b fun x y => arith s.config.overflowPolicy (x.toInt * y.toInt)
  | .lessThan a b _ => s.combine a b fun x y => .ok (truthWord (x.toInt < y.toInt))
  | .equals a b _ => s.combine a b fun x y => .ok (truthWord (x = y))
  | .input _ => s.input
  | .output _ => none
  | .jumpIfTrue _ _ => none
  | .jumpIfFalse _ _ => none
  | .adjustBase _ => none
  | .halt => none

/-- The resolution of operand `k` (counted from 1) of an instruction: `WriteTarget` for the destination, `ReadOperand` for a
source (R77); only whether and how it fails. -/
def State.resolve (s : State) (i : Instr) (k : Nat) (o : Operand) : Except Failure Unit :=
  if i.opcode.writes = some k then (s.writeTarget o).map (fun _ => ()) else (s.readOperand o).map (fun _ => ())

/-- The failure reasons an instruction may raise once it is decoded (the column "raised by" of R140). -/
def mayRaise : Instr → FailReason → Bool
  | .halt, _ => false
  | i, .invalidWriteTarget => i.destination.isSome
  | i, .memoryBounds => i.destination.isSome
  | i, .numericOverflow => i.opcode == .add || i.opcode == .multiply || i.opcode == .adjustBase
  | i, .outOfRangeJump => i.opcode == .jumpIfTrue || i.opcode == .jumpIfFalse
  | i, .inputExhausted => i.opcode == .input
  | i, .outputFull => i.opcode == .output
  | _, .invalidAddress => true
  | _, .decodeError => false

end Sys2Proof.Machine
end

