-- ==== Sys2Proof/WellFormed.lean ====
section
/-! DEFINITION. Which instructions can complete: the `completes_with` lists of the opcode table. The decoder accepts more (R58):
an Immediate destination decodes, and fails only when it is resolved (R76). -/

namespace Sys2Proof

/-- Whether an operand may name the cell an instruction writes: any mode but Immediate (R55). -/
def Operand.writable (o : Operand) : Bool :=
  match o.mode with
  | .position => true
  | .immediate => false
  | .relative => true

/-- An instruction is well formed when its destination operand, if it has one, is not Immediate
(R54, R55; `completes_with` of spec/opcode_table.json). -/
def Instr.wellFormed : Instr → Bool
  | .add _ _ dst => dst.writable
  | .multiply _ _ dst => dst.writable
  | .input dst => dst.writable
  | .output _ => true
  | .jumpIfTrue _ _ => true
  | .jumpIfFalse _ _ => true
  | .lessThan _ _ dst => dst.writable
  | .equals _ _ dst => dst.writable
  | .adjustBase _ => true
  | .halt => true

end Sys2Proof
end

