-- ==== Sys2Proof/Certificates/Slice0/Obligations.lean ====
section
/-! DEFINITION. The statements for the provers, from the numbered rules of spec/. "D<n>" is an entry of
92_eei_decisions.md, "log <n>" one of notes/assumptions. -/

open Sys2Proof Sys2Proof.Machine

/-! ## Encoding (30_encoding.md) -/

/-- Decoding the words of an instruction gives it back, with the words after it untouched (R50 to R55), with either value of
`UNUSED_DIGITS_FAULT`. -/
def Obligations.EncodeThenDecode : Prop :=
  ∀ (strict : Bool) (i : Instr) (rest : List Word), decodeWords strict (encode i ++ rest) = .ok (i, rest)

/-- With `UNUSED_DIGITS_FAULT`, an accepted list of words is the encoding of the instruction it decodes to: each
instruction has one canonical word (R61; the parameter is D7). -/
def Obligations.StrictDecodeThenEncode : Prop :=
  ∀ (ws : List Word) (i : Instr) (rest : List Word), decodeWords true ws = .ok (i, rest) → ws = encode i ++ rest

/-- A word is accepted exactly when it is not negative, its opcode number is in the table, the mode digits of its operands are
0, 1 or 2 and, with `UNUSED_DIGITS_FAULT`, it has no digit beyond them (R56 with D6, R57, R59 with D7). -/
def Obligations.DecodeAcceptsExactly : Prop :=
  ∀ (strict : Bool) (w : Word) (p : Nat → Word),
    (∃ i, decode strict w p = .ok i) ↔
      0 ≤ w.toInt ∧ ∃ op : Opcode, op.number = w.toNat % 100 ∧
        (∀ k, 1 ≤ k → k ≤ op.arity → digit w.toNat (k + 1) ≤ 2) ∧
        (strict = true → w.toNat / 10 ^ (op.arity + 2) = 0)

/-- The fields of an accepted word: the opcode number is `w mod 100`; there are `arity` operands; the mode of operand k is the
digit `(w / 10^(k+1)) mod 10` and its raw parameter the k-th word after it, whole (R51, R55). -/
def Obligations.DecodedFieldsAreDecimalDigits : Prop :=
  ∀ (strict : Bool) (w : Word) (p : Nat → Word) (i : Instr), decode strict w p = .ok i →
    i.opcode.number = w.toNat % 100 ∧ i.operands.length = i.opcode.arity ∧
      ∀ (k : Nat) (o : Operand), i.operands[k]? = some o →
        o.mode.number = w.toNat / 10 ^ (k + 2) % 10 ∧ o.raw = p (k + 1)

/-- Without `UNUSED_DIGITS_FAULT` a word decodes like its last five digits (R61; D7). -/
def Obligations.DecodeReadsFiveDigits : Prop :=
  ∀ (w u : Word) (p : Nat → Word), 0 ≤ w.toInt → 0 ≤ u.toInt → w.toNat % 100000 = u.toNat % 100000 →
    decode false w p = decode false u p

/-- Instruction words of the spec's own examples decode to the instructions they stand for (R62; sections 2.1 and 3 of
95_test_vectors.md). -/
def Obligations.SpecWordsDecode : Prop :=
  decodeWords false [1002, 4, 3, 4] = .ok (.multiply ⟨.position, 4⟩ ⟨.immediate, 3⟩ ⟨.position, 4⟩, []) ∧
  decodeWords false [22201, 0, 1, 2] = .ok (.add ⟨.relative, 0⟩ ⟨.relative, 1⟩ ⟨.relative, 2⟩, []) ∧
  decodeWords false [203, 1] = .ok (.input ⟨.relative, 1⟩, []) ∧
  decodeWords false [1104, 3, 99] = .ok (.output ⟨.immediate, 3⟩, [99]) ∧
  decodeWords true [1104, 3, 99] = .error .unusedDigit ∧
  decodeWords false [2105, 7, 8] = .ok (.jumpIfTrue ⟨.immediate, 7⟩ ⟨.relative, 8⟩, []) ∧
  decodeWords false [1006, 101, 0] = .ok (.jumpIfFalse ⟨.position, 101⟩ ⟨.immediate, 0⟩, []) ∧
  decodeWords false [21107, 1, 2, 3] = .ok (.lessThan ⟨.immediate, 1⟩ ⟨.immediate, 2⟩ ⟨.relative, 3⟩, []) ∧
  decodeWords false [1008, 100, 16, 101] = .ok (.equals ⟨.position, 100⟩ ⟨.immediate, 16⟩ ⟨.position, 101⟩, []) ∧
  decodeWords false [209, 1] = .ok (.adjustBase ⟨.relative, 1⟩, []) ∧
  decodeWords false [20099] = .ok (.halt, []) ∧
  decodeWords false [11100, 0, 0, 0] = .error (.unknownOpcode 0) ∧
  decodeWords false [3001, 0, 0, 0] = .error (.illegalMode 2) ∧
  decodeWords false [-1] = .error .negativeWord

/-- In the syntax: the destination operand of an instruction is the one at `writes(op)`, and every other operand is a source; there is
at most one destination (after R54; that sources are read and the destination written is in the statements on `exec`). -/
def Obligations.OperandRoles : Prop :=
  Opcode.add.writes = some 3 ∧ Opcode.multiply.writes = some 3 ∧ Opcode.lessThan.writes = some 3 ∧
  Opcode.equals.writes = some 3 ∧ Opcode.input.writes = some 1 ∧ Opcode.output.writes = none ∧
  Opcode.jumpIfTrue.writes = none ∧ Opcode.jumpIfFalse.writes = none ∧ Opcode.adjustBase.writes = none ∧
  Opcode.halt.writes = none ∧
  ∀ i : Instr,
    (∀ k, i.opcode.writes = some k → ∃ d, i.destination = some d ∧ i.operands[k - 1]? = some d ∧
      i.sources = i.operands.eraseIdx (k - 1) ∧ i.sources.length + 1 = i.operands.length) ∧
    (i.opcode.writes = none → i.destination = none ∧ i.sources = i.operands)

/-- An Immediate destination is no decode failure: its words are accepted, they are exactly those with `m_3` = 1 and opcode 1, 2,
7 or 8 or with `m_1` = 1 and opcode 3, and running one fails with `InvalidWriteTarget` once its sources are resolved (R58). -/
def Obligations.ImmediateDestinationFailsAtResolution : Prop :=
  (∀ (strict : Bool) (i : Instr) (rest : List Word), i.wellFormed = false →
    decodeWords strict (encode i ++ rest) = .ok (i, rest)) ∧
  (∀ (strict : Bool) (w : Word) (p : Nat → Word) (i : Instr), decode strict w p = .ok i →
    (i.wellFormed = false ↔
      ((w.toNat % 100 = 1 ∨ w.toNat % 100 = 2 ∨ w.toNat % 100 = 7 ∨ w.toNat % 100 = 8) ∧ digit w.toNat 4 = 1) ∨
        (w.toNat % 100 = 3 ∧ digit w.toNat 2 = 1))) ∧
  ∀ (s : State) (i : Instr) (d : Operand), i.destination = some d → d.mode = .immediate →
    s.ip.toNat + i.length ≤ addrMax → (∀ o ∈ i.sources, ∃ v, s.readOperand o = .ok v) →
    ∃ (t : State) (f : Failure), exec i s = .next t ∧ t.status = .failed f ∧ f.reason = .invalidWriteTarget

/-! ## Memory (20_memory.md) -/

/-- One memory write: the cell takes the value, `LEN` becomes `addr + 1` where it was not above `addr`, the cells that are thereby
stored read 0, every other cell reads as before; and no operand is resolved to a target the write could not take (R31). -/
def Obligations.MemWriteEffect : Prop :=
  (∀ (s : State) (a : Nat) (v : Word), a ≤ addrMax → a < s.config.memWords →
    (s.memWrite a v).memRead a = v ∧
    (∀ b, s.mem.len ≤ b → b < a → (s.memWrite a v).memRead b = 0) ∧
    (∀ b, b ≠ a → (s.memWrite a v).memRead b = s.memRead b) ∧
    (s.mem.len ≤ a → (s.memWrite a v).mem.len = a + 1) ∧
    (a < s.mem.len → (s.memWrite a v).mem.len = s.mem.len)) ∧
  ∀ (s : State) (o : Operand) (t : Nat), s.writeTarget o = .ok t → t ≤ addrMax ∧ t < s.config.memWords

/-- The total-function view: after any writes to an empty memory, a cell reads as the last value written to it, and as 0 if there
was none; and such a memory has the canonical form (R34, R12; the canonical form is the model's, log 1). -/
def Obligations.ReadGivesLastWrite : Prop :=
  ∀ (ws : List (Nat × Word)) (a : Nat),
    (ws.foldl (fun m p => Memory.write m p.1 p.2) ⟨[], 0⟩).read a =
      ((ws.reverse.find? (fun p => p.1 == a)).map Prod.snd).getD 0 ∧
    (ws.foldl (fun m p => Memory.write m p.1 p.2) ⟨[], 0⟩).wf

/-! ## Operands (40_execution_step.md) -/

/-- `ReadOperand`: the raw parameter in Immediate mode, else the cell at the exact effective address, which fails with
`InvalidAddress` outside 0 to `ADDR_MAX` (R74 with D4, R75). -/
def Obligations.SourceOperandValue : Prop :=
  ∀ (s : State) (p : Word),
    s.readOperand ⟨.immediate, p⟩ = .ok p ∧
    (0 ≤ p.toInt → s.readOperand ⟨.position, p⟩ = .ok (s.memRead p.toNat)) ∧
    (p.toInt < 0 → s.readOperand ⟨.position, p⟩ = .error ⟨.invalidAddress, p⟩) ∧
    (0 ≤ s.rb.toInt + p.toInt → s.rb.toInt + p.toInt ≤ addrMax →
      s.readOperand ⟨.relative, p⟩ = .ok (s.memRead (s.rb.toInt + p.toInt).toNat)) ∧
    (s.rb.toInt + p.toInt < 0 ∨ addrMax < s.rb.toInt + p.toInt →
      s.readOperand ⟨.relative, p⟩ = .error ⟨.invalidAddress, s.rb + p⟩)

/-- `WriteTarget`: `InvalidWriteTarget` in Immediate mode, else the exact effective address, which fails with `InvalidAddress`
outside 0 to `ADDR_MAX` and with `MemoryBounds` at or above `MEM_WORDS` (R74 with D4, R76, R33 with D5). -/
def Obligations.DestinationOperandTarget : Prop :=
  ∀ (s : State) (p : Word),
    s.writeTarget ⟨.immediate, p⟩ = .error ⟨.invalidWriteTarget, p⟩ ∧
    (0 ≤ p.toInt → p.toNat < s.config.memWords → s.writeTarget ⟨.position, p⟩ = .ok p.toNat) ∧
    (0 ≤ p.toInt → s.config.memWords ≤ p.toNat → s.writeTarget ⟨.position, p⟩ = .error ⟨.memoryBounds, p⟩) ∧
    (p.toInt < 0 → s.writeTarget ⟨.position, p⟩ = .error ⟨.invalidAddress, p⟩) ∧
    (0 ≤ s.rb.toInt + p.toInt → s.rb.toInt + p.toInt ≤ addrMax → s.rb.toInt + p.toInt < s.config.memWords →
      s.writeTarget ⟨.relative, p⟩ = .ok (s.rb.toInt + p.toInt).toNat) ∧
    (0 ≤ s.rb.toInt + p.toInt → s.rb.toInt + p.toInt ≤ addrMax → s.config.memWords ≤ s.rb.toInt + p.toInt →
      s.writeTarget ⟨.relative, p⟩ = .error ⟨.memoryBounds, s.rb + p⟩) ∧
    (s.rb.toInt + p.toInt < 0 ∨ addrMax < s.rb.toInt + p.toInt →
      s.writeTarget ⟨.relative, p⟩ = .error ⟨.invalidAddress, s.rb + p⟩)

/-- `arith`: an exact result in range is the word of that value; out of range it is `NumericOverflow` under `Fault` and the
wrapped word under `Wrap`, both with the word of value `((v + 2^63) mod 2^64) − 2^63` (R8 with D2, R7 with D1). -/
def Obligations.ArithmeticResult : Prop :=
  ∀ v : Int,
    (intMin ≤ v → v ≤ intMax → ∀ policy, ∃ w : Word, w.toInt = v ∧ arith policy v = .ok w) ∧
    (v < intMin ∨ intMax < v → ∃ w : Word, w.toInt = (v + 9223372036854775808) % 18446744073709551616 - 9223372036854775808 ∧
      arith .fault v = .error ⟨.numericOverflow, w⟩ ∧ arith .wrap v = .ok w)

/-! ## The instructions: where each completes -/

/-- Add completes whenever its operands are resolved and the exact sum is in range: the destination cell takes the sum and `IP`
advances by 4; nothing else changes (R90). -/
def Obligations.AddStoresSum : Prop :=
  ∀ (s : State) (a b dst : Operand) (x y : Word) (t : Nat), s.ip.toNat + 4 ≤ addrMax →
    s.readOperand a = .ok x → s.readOperand b = .ok y → s.writeTarget dst = .ok t →
    intMin ≤ x.toInt + y.toInt → x.toInt + y.toInt ≤ intMax →
    ∃ r : Word, r.toInt = x.toInt + y.toInt ∧ exec (.add a b dst) s = .next ((s.memWrite t r).setIp (s.ip + 4))

/-- Multiply completes whenever its operands are resolved and the exact product is in range: the destination cell takes the
product and `IP` advances by 4; nothing else changes (R91). -/
def Obligations.MultiplyStoresProduct : Prop :=
  ∀ (s : State) (a b dst : Operand) (x y : Word) (t : Nat), s.ip.toNat + 4 ≤ addrMax →
    s.readOperand a = .ok x → s.readOperand b = .ok y → s.writeTarget dst = .ok t →
    intMin ≤ x.toInt * y.toInt → x.toInt * y.toInt ≤ intMax →
    ∃ r : Word, r.toInt = x.toInt * y.toInt ∧ exec (.multiply a b dst) s = .next ((s.memWrite t r).setIp (s.ip + 4))

/-- Input completes whenever its destination is resolved and the host supplied a value: the cell takes the value, which is
kept, and `IP` advances by 2 (R101). -/
def Obligations.InputStoresInputValue : Prop :=
  ∀ (s : State) (dst : Operand) (v : Word) (t : Nat), s.ip.toNat + 2 ≤ addrMax → s.writeTarget dst = .ok t →
    s.input = some v → exec (.input dst) s = .next ((s.memWrite t v).setIp (s.ip + 2))

/-- Output completes whenever its operand is resolved and `OUT` is not at its capacity: the value is appended and `IP` advances
by 2 (R102). -/
def Obligations.OutputAppendsValue : Prop :=
  ∀ (s : State) (a : Operand) (v : Word), s.ip.toNat + 2 ≤ addrMax → s.readOperand a = .ok v →
    s.config.outCapacity ≠ some s.output.length →
    exec (.output a) s = .next { s with output := s.output ++ [v], ip := s.ip + 2 }

/-- JumpIfTrue completes whenever its operands are resolved and it is not a taken jump to a negative target: `IP` becomes the target
if `cond` is not 0, and advances by 3 if it is (R110). -/
def Obligations.JumpIfTrueSetsIp : Prop :=
  ∀ (s : State) (cond target : Operand) (c v : Word), s.ip.toNat + 3 ≤ addrMax →
    s.readOperand cond = .ok c → s.readOperand target = .ok v →
    (c ≠ 0 → 0 ≤ v.toInt → exec (.jumpIfTrue cond target) s = .next (s.setIp v)) ∧
    (c = 0 → exec (.jumpIfTrue cond target) s = .next (s.setIp (s.ip + 3)))

/-- JumpIfFalse completes whenever its operands are resolved and it is not a taken jump to a negative target: `IP` becomes the
target if `cond` is 0, and advances by 3 if it is not (R111). -/
def Obligations.JumpIfFalseSetsIp : Prop :=
  ∀ (s : State) (cond target : Operand) (c v : Word), s.ip.toNat + 3 ≤ addrMax →
    s.readOperand cond = .ok c → s.readOperand target = .ok v →
    (c = 0 → 0 ≤ v.toInt → exec (.jumpIfFalse cond target) s = .next (s.setIp v)) ∧
    (c ≠ 0 → exec (.jumpIfFalse cond target) s = .next (s.setIp (s.ip + 3)))

/-- LessThan completes whenever its operands are resolved: the destination cell takes 1 if `a < b` as signed numbers and 0 if not,
and `IP` advances by 4 (R120). -/
def Obligations.LessThanStoresTruth : Prop :=
  ∀ (s : State) (a b dst : Operand) (x y : Word) (t : Nat), s.ip.toNat + 4 ≤ addrMax →
    s.readOperand a = .ok x → s.readOperand b = .ok y → s.writeTarget dst = .ok t →
    exec (.lessThan a b dst) s = .next ((s.memWrite t (if x.toInt < y.toInt then 1 else 0)).setIp (s.ip + 4))

/-- Equals completes whenever its operands are resolved: the destination cell takes 1 if `a = b` and 0 if not, and `IP` advances
by 4 (R121). -/
def Obligations.EqualsStoresTruth : Prop :=
  ∀ (s : State) (a b dst : Operand) (x y : Word) (t : Nat), s.ip.toNat + 4 ≤ addrMax →
    s.readOperand a = .ok x → s.readOperand b = .ok y → s.writeTarget dst = .ok t →
    exec (.equals a b dst) s = .next ((s.memWrite t (if x = y then 1 else 0)).setIp (s.ip + 4))

/-- AdjustBase completes whenever its operand is resolved and the exact sum is in range: `RB` becomes the sum and `IP` advances by
2 (R130). -/
def Obligations.AdjustBaseAddsToBase : Prop :=
  ∀ (s : State) (a : Operand) (v : Word), s.ip.toNat + 2 ≤ addrMax → s.readOperand a = .ok v →
    intMin ≤ s.rb.toInt + v.toInt → s.rb.toInt + v.toInt ≤ intMax →
    ∃ r : Word, r.toInt = s.rb.toInt + v.toInt ∧ exec (.adjustBase a) s = .next { s with rb := r, ip := s.ip + 2 }

/-- Halt completes in every state, at every `IP`: `STATUS` becomes `Halted` and nothing else changes, `IP` included (R135). -/
def Obligations.HaltStopsInPlace : Prop :=
  ∀ s : State, exec .halt s = .next { s with status := .halted }

/-- Add, Multiply and AdjustBase with an exact result out of range: under `Fault` the step fails with `NumericOverflow`
and changes nothing else (D10); under `Wrap` it completes with the wrapped word (R8 with D2, R90, R91, R130). That the wrapped word is
the two's complement one is D1, from general knowledge (log 6). -/
def Obligations.OverflowFailsOrWraps : Prop :=
  (∀ (s : State) (a b dst : Operand) (x y : Word) (t : Nat), s.ip.toNat + 4 ≤ addrMax →
    s.readOperand a = .ok x → s.readOperand b = .ok y → s.writeTarget dst = .ok t →
    (x.toInt + y.toInt < intMin ∨ intMax < x.toInt + y.toInt →
      (s.config.overflowPolicy = .fault → exec (.add a b dst) s = .next (s.raise ⟨.numericOverflow, x + y⟩)) ∧
      (s.config.overflowPolicy = .wrap → exec (.add a b dst) s = .next ((s.memWrite t (x + y)).setIp (s.ip + 4)))) ∧
    (x.toInt * y.toInt < intMin ∨ intMax < x.toInt * y.toInt →
      (s.config.overflowPolicy = .fault → exec (.multiply a b dst) s = .next (s.raise ⟨.numericOverflow, x * y⟩)) ∧
      (s.config.overflowPolicy = .wrap →
        exec (.multiply a b dst) s = .next ((s.memWrite t (x * y)).setIp (s.ip + 4))))) ∧
  ∀ (s : State) (a : Operand) (v : Word), s.ip.toNat + 2 ≤ addrMax → s.readOperand a = .ok v →
    s.rb.toInt + v.toInt < intMin ∨ intMax < s.rb.toInt + v.toInt →
    (s.config.overflowPolicy = .fault → exec (.adjustBase a) s = .next (s.raise ⟨.numericOverflow, s.rb + v⟩)) ∧
    (s.config.overflowPolicy = .wrap → exec (.adjustBase a) s = .next { s with rb := s.rb + v, ip := s.ip + 2 })

/-- Exchanging the sources of Add or Multiply changes nothing, overflow included, when both are resolved (R93). -/
def Obligations.AddMultiplyCommute : Prop :=
  ∀ (s : State) (a b dst : Operand) (x y : Word), s.readOperand a = .ok x → s.readOperand b = .ok y →
    exec (.add a b dst) s = exec (.add b a dst) s ∧ exec (.multiply a b dst) s = exec (.multiply b a dst) s

/-- For any two source operands that are resolved, and one destination, exactly one of "a less than b", "a equals b", "b less than
a" stores 1, and each of the three instructions stores 0 or 1 (R122). -/
def Obligations.ComparisonTrichotomy : Prop :=
  ∀ (s : State) (a b dst : Operand) (x y : Word) (t : Nat), s.ip.toNat + 4 ≤ addrMax →
    s.readOperand a = .ok x → s.readOperand b = .ok y → s.writeTarget dst = .ok t →
    ∃ u v w : State, exec (.lessThan a b dst) s = .next u ∧ exec (.equals a b dst) s = .next v ∧
      exec (.lessThan b a dst) s = .next w ∧
      ((u.memRead t = 1 ∧ v.memRead t = 0 ∧ w.memRead t = 0) ∨
        (u.memRead t = 0 ∧ v.memRead t = 1 ∧ w.memRead t = 0) ∨
        (u.memRead t = 0 ∧ v.memRead t = 0 ∧ w.memRead t = 1))

/-! ## Failures (60_exceptions.md) -/

/-- Every instruction but Halt fails with `InvalidAddress` when `IP + 1 + arity` exceeds `ADDR_MAX`, before anything else of it is
looked at (R73; D12). -/
def Obligations.TopOfAddressSpaceFails : Prop :=
  ∀ (s : State) (i : Instr), i ≠ .halt → addrMax < s.ip.toNat + i.length →
    exec i s = .next (s.raise ⟨.invalidAddress, s.ip + BitVec.ofNat 64 i.length⟩)

/-- Operands are resolved in the order 1, 2, 3, the target of an untaken jump too, and the first that fails is the one reported,
before the instruction's own check (R77 and R152; D8, D9). -/
def Obligations.FirstUnresolvedOperandIsReported : Prop :=
  ∀ (s : State) (i : Instr) (k : Nat) (o : Operand) (f : Failure), s.ip.toNat + i.length ≤ addrMax →
    (∀ j q, j < k → i.operands[j]? = some q → s.resolve i (j + 1) q = .ok ()) →
    i.operands[k]? = some o → s.resolve i (k + 1) o = .error f → exec i s = .next (s.raise f)

/-- A taken jump to a negative target fails with `OutOfRangeJump`, `IP` staying at the jump (R113, R143; D11). -/
def Obligations.NegativeJumpTargetFails : Prop :=
  ∀ (s : State) (cond target : Operand) (c v : Word), s.ip.toNat + 3 ≤ addrMax →
    s.readOperand cond = .ok c → s.readOperand target = .ok v → v.toInt < 0 →
    (c ≠ 0 → exec (.jumpIfTrue cond target) s = .next (s.raise ⟨.outOfRangeJump, v⟩)) ∧
    (c = 0 → exec (.jumpIfFalse cond target) s = .next (s.raise ⟨.outOfRangeJump, v⟩))

/-- Input with `IN` empty fails with `InputExhausted(0)`, and Output with `OUT` at its capacity with `OutputFull`, once the
operand is resolved (R101 with D13, R102 with D14). -/
def Obligations.PortFailures : Prop :=
  (∀ (s : State) (dst : Operand) (t : Nat), s.ip.toNat + 2 ≤ addrMax → s.writeTarget dst = .ok t → s.input = none →
    exec (.input dst) s = .next (s.raise ⟨.inputExhausted, 0⟩)) ∧
  ∀ (s : State) (a : Operand) (v : Word), s.ip.toNat + 2 ≤ addrMax → s.readOperand a = .ok v →
    s.config.outCapacity = some s.output.length → exec (.output a) s = .next (s.raise ⟨.outputFull, v⟩)

/-- Failures are precise: a step that fails changes `STATUS` and nothing else, and only a `Running` machine takes it (R150; that the
rest is unchanged is D10). -/
def Obligations.FailingStepChangesStatusOnly : Prop :=
  ∀ (s t : State) (f : Failure), step s = .next t → t.status = .failed f →
    s.status = .running ∧ t = { s with status := .failed f }

/-- Which instruction may raise which failure (column "raised by" of R140): write-target and memory-bound failures need a
destination operand; overflow is for Add, Multiply and AdjustBase; Halt raises nothing. -/
def Obligations.FailureReasonsByInstruction : Prop :=
  ∀ (s t : State) (i : Instr) (f : Failure), s.status = .running → exec i s = .next t → t.status = .failed f →
    mayRaise i f.reason = true

/-- With `MEM_WORDS` = 2^63 and `OUT_CAPACITY` unbounded only the reasons of codes 1 to 6 occur (R140). -/
def Obligations.SixReasonsByDefault : Prop :=
  ∀ (s t : State) (f : Failure), s.config.memWords = 9223372036854775808 → s.config.outCapacity = none →
    step s = .next t → t.status = .failed f → 1 ≤ f.reason.code ∧ f.reason.code ≤ 6

/-! ## Frames -/

/-- What Add, Multiply, LessThan, Equals and Input leave unchanged: `RB`, `IN`, `OUT`, the parameters, `STATUS` unless the step
fails, and every cell but the destination's (R10, R90, R91, R101, R120, R121). That a failure changes nothing else is D10 (log 3). -/
def Obligations.StoringInstructionFrame : Prop :=
  ∀ (a b dst : Operand) (s t : State) (i : Instr),
    i ∈ [Instr.add a b dst, .multiply a b dst, .lessThan a b dst, .equals a b dst, .input dst] →
    exec i s = .next t →
    t.rb = s.rb ∧ t.input = s.input ∧ t.output = s.output ∧ t.config = s.config ∧
    (t.status = s.status ∨ ∃ f, t = s.raise f) ∧
    (∀ target, s.writeTarget dst = .ok target → ∀ x, x ≠ target → t.memRead x = s.memRead x) ∧
    (∀ f, s.writeTarget dst = .error f → ∀ x, t.memRead x = s.memRead x)

/-- What the two jumps leave unchanged: all of `MEM` and `LEN`, `RB`, `IN`, `OUT`, the parameters, and `STATUS` unless the step
fails (R110, R111). That a failure changes nothing else is D10 (log 3). -/
def Obligations.JumpFrame : Prop :=
  ∀ (cond target : Operand) (s t : State) (i : Instr),
    i ∈ [Instr.jumpIfTrue cond target, .jumpIfFalse cond target] → exec i s = .next t →
    t.mem = s.mem ∧ (∀ x, t.memRead x = s.memRead x) ∧ t.rb = s.rb ∧ t.input = s.input ∧ t.output = s.output ∧
    t.config = s.config ∧ (t.status = s.status ∨ ∃ f, t = s.raise f)

/-- What Output, AdjustBase and Halt leave unchanged: all of `MEM` and `LEN`, `IN` and the parameters; `RB` but for AdjustBase,
`OUT` but for Output, and `STATUS` unless the step fails or is a Halt's, which keeps `IP` too (R102, R130, R135). That a failure
changes nothing else is D10 (log 3). -/
def Obligations.OutputBaseHaltFrame : Prop :=
  ∀ (a : Operand) (s t : State) (i : Instr), i ∈ [Instr.output a, .adjustBase a, .halt] → exec i s = .next t →
    t.mem = s.mem ∧ (∀ x, t.memRead x = s.memRead x) ∧ t.input = s.input ∧ t.config = s.config ∧
    (i ≠ .adjustBase a → t.rb = s.rb) ∧ (i ≠ .output a → t.output = s.output) ∧
    (i = .halt → t.ip = s.ip) ∧ (i ≠ .halt → t.status = s.status ∨ ∃ f, t = s.raise f)

/-! ## The step and the run -/

/-- A step of a `Running` machine runs the instruction that the words at `IP` decode to, every word read from memory anew
(R71, R79). -/
def Obligations.StepRunsDecodedInstruction : Prop :=
  ∀ (s : State) (i : Instr), s.status = .running →
    decode s.config.unusedDigitsFault (s.memRead s.ip.toNat) (fun k => s.memRead (s.ip.toNat + k)) = .ok i →
    step s = exec i s

/-- A step of a `Running` machine whose word at `IP` the decoder refuses fails with `DecodeError` and that word (R56 with D6, R57,
R59 with D7, R72). -/
def Obligations.IllegalWordIsDecodeError : Prop :=
  ∀ (s : State) (r : Reject), s.status = .running →
    decode s.config.unusedDigitsFault (s.memRead s.ip.toNat) (fun k => s.memRead (s.ip.toNat + k)) = .error r →
    step s = .next (s.raise ⟨.decodeError, s.memRead s.ip.toNat⟩)

/-- A mode digit other than 0, 1, 2 at any operand of a recognized opcode, source or destination, makes the step fail with
`DecodeError` and the word, whatever the operands are (R57). -/
def Obligations.IllegalModeDigitFails : Prop :=
  ∀ (s : State) (op : Opcode) (k : Nat), s.status = .running → 0 ≤ (s.memRead s.ip.toNat).toInt →
    op.number = (s.memRead s.ip.toNat).toNat % 100 → 1 ≤ k → k ≤ op.arity →
    2 < digit (s.memRead s.ip.toNat).toNat (k + 1) →
    ∃ t : State, step s = .next t ∧ t.status = .failed ⟨.decodeError, s.memRead s.ip.toNat⟩

/-- A word that is negative (D6) or whose opcode number is not 1 to 9 or 99 makes the step fail with `DecodeError` and the
word (R56). -/
def Obligations.UnrecognizedOpcodeFails : Prop :=
  ∀ s : State, s.status = .running →
    ((s.memRead s.ip.toNat).toInt < 0 ∨ ∀ op : Opcode, op.number ≠ (s.memRead s.ip.toNat).toNat % 100) →
    step s = .next (s.raise ⟨.decodeError, s.memRead s.ip.toNat⟩)

/-- A step is defined exactly while `STATUS` is `Running`; a machine in any other status never changes again; and N steps taken one
part after another give the state of N steps in one go (R70). -/
def Obligations.StepOnlyWhileRunning : Prop :=
  (∀ s : State, s.status = .running ↔ ∃ t, step s = .next t) ∧
  (∀ (s : State) (n : Nat), s.status ≠ .running → s.run n = s) ∧
  ∀ (s : State) (m n : Nat), s.run (m + n) = (s.run m).run n

/-- A run has one outcome: two runs from one state that have both stopped have stopped in the same state (R70, R81). -/
def Obligations.RunOutcomeIsUnique : Prop :=
  ∀ (s : State) (m n : Nat), (s.run m).status ≠ .running → (s.run n).status ≠ .running → s.run m = s.run n

/-- The advance of `IP` in a step that does not fail: by 4 after Add, Multiply, LessThan and Equals; by 2 after Input, Output and
AdjustBase; to the target after a taken jump, by 3 after an untaken one; not at all after Halt (R78). -/
def Obligations.InstructionPointerAdvance : Prop :=
  ∀ (s t : State) (i : Instr), s.status = .running → s.fetch = .ok i → step s = .next t → (∀ f, t.status ≠ .failed f) →
    match i with
    | .add _ _ _ => t.ip.toNat = s.ip.toNat + 4
    | .multiply _ _ _ => t.ip.toNat = s.ip.toNat + 4
    | .lessThan _ _ _ => t.ip.toNat = s.ip.toNat + 4
    | .equals _ _ _ => t.ip.toNat = s.ip.toNat + 4
    | .input _ => t.ip.toNat = s.ip.toNat + 2
    | .output _ => t.ip.toNat = s.ip.toNat + 2
    | .adjustBase _ => t.ip.toNat = s.ip.toNat + 2
    | .jumpIfTrue cond target => ∃ c, s.readOperand cond = .ok c ∧
        (c ≠ 0 → s.readOperand target = .ok t.ip) ∧ (c = 0 → t.ip.toNat = s.ip.toNat + 3)
    | .jumpIfFalse cond target => ∃ c, s.readOperand cond = .ok c ∧
        (c = 0 → s.readOperand target = .ok t.ip) ∧ (c ≠ 0 → t.ip.toNat = s.ip.toNat + 3)
    | .halt => t.ip = s.ip ∧ t.status = .halted

/-- Who changes each of the six elements: `MEM` (with `LEN`) only an instruction with a destination, by one write of that
destination's cell, and `LEN` never decreases; `IP` every instruction but Halt, and no step that fails; `RB` only AdjustBase; `STATUS`
becomes `Halted` only by Halt; `OUT` only Output, by one element at its end; `IN`, like the parameters, nothing (R11 to R17). That a
failing step changes neither `MEM` nor `IP` is D10 (log 3). -/
def Obligations.WhoWritesEachElement : Prop :=
  ∀ s t : State, step s = .next t →
    (t.mem ≠ s.mem → ∃ i d a v, s.fetch = .ok i ∧ i.destination = some d ∧ s.writeTarget d = .ok a ∧ t.mem = s.mem.write a v) ∧
    (t.ip ≠ s.ip → (∀ f, t.status ≠ .failed f) ∧ ∃ i, s.fetch = .ok i ∧ i ≠ .halt) ∧
    (t.rb ≠ s.rb → ∃ a, s.fetch = .ok (.adjustBase a)) ∧
    (t.output ≠ s.output → ∃ a v, s.fetch = .ok (.output a) ∧ t.output = s.output ++ [v]) ∧
    (t.status = .halted → s.fetch = .ok .halt) ∧
    t.input = s.input ∧ t.config = s.config ∧ s.mem.len ≤ t.mem.len

/-- A store is seen by the next fetch with no delay, whichever instruction makes it: a step of Add, Multiply, LessThan, Equals or
Input that completes leaves a memory in which its target reads as the word it stored and every other cell as before; if the
target is the next instruction's own word, that word is fetched; and the next instruction is decoded from those cells, its raw
parameters included (R43, R185). The word stored under `Wrap` on an overflow is D1's (log 6). -/
def Obligations.NextFetchSeesStore : Prop :=
  ∀ (s : State) (i : Instr) (d : Operand) (a : Nat) (v : Word), s.status = .running → s.fetch = .ok i →
    i.destination = some d → s.ip.toNat + i.length ≤ addrMax → s.writeTarget d = .ok a → s.storedWord i = some v →
    ∃ t, step s = .next t ∧ t.status = .running ∧ t.ip.toNat = s.ip.toNat + i.length ∧
      (a = t.ip.toNat → t.fetchWord = v) ∧
      (∀ b, t.memRead b = if b = a then v else s.memRead b) ∧
      ∀ j, decode s.config.unusedDigitsFault (if t.ip.toNat = a then v else s.memRead t.ip.toNat)
          (fun k => if t.ip.toNat + k = a then v else s.memRead (t.ip.toNat + k)) = .ok j →
        t.fetch = .ok j

/-- A step depends on memory only through the cells R45 lists for its instruction (and never on `LEN`, R12): in any other memory
that agrees on those cells it changes every other element alike and makes the same one write to the destination's target, if it
makes one. -/
def Obligations.StepDependsOnlyOnReadCells : Prop :=
  ∀ (s t : State) (i : Instr) (m : Memory), s.status = .running → s.fetch = .ok i →
    (∀ a ∈ s.readCells i, m.read a = s.memRead a) → step s = .next t →
    ∃ m' : Memory, step { s with mem := m } = .next { t with mem := m' } ∧
      ((t.mem = s.mem ∧ m' = m) ∨ ∃ d a v, i.destination = some d ∧ s.writeTarget d = .ok a ∧
        t.mem = s.mem.write a v ∧ m' = m.write a v)

/-- The invariant of R20 is kept by every step: parameters in range, memory in canonical form and within `MEM_WORDS`, `IP` an
address, `OUT` within its capacity (the canonical form is the model's, log 1). -/
def Obligations.StepKeepsInvariant : Prop :=
  ∀ s t : State, s.inv → step s = .next t → t.inv

/-- The state after reset (R21; the parameters are the spec's defaults, log 2), and that it meets the invariant. -/
def Obligations.ResetStateValues : Prop :=
  State.reset.ip = 0 ∧ State.reset.rb = 0 ∧ State.reset.status = .running ∧ State.reset.output = [] ∧
  State.reset.input = none ∧ State.reset.mem.len = 0 ∧ (∀ a, State.reset.memRead a = 0) ∧ State.reset.inv

/-! ## The host's side (70_reset_and_hazards.md, 30_encoding.md) -/

/-- Reset discards everything but the machine's parameters, from every state, `Halted` and `Failed` included (R170; D19). -/
def Obligations.RestartDiscardsAll : Prop :=
  ∀ s u : State, s.config = u.config → s.restart = u.restart ∧ s.restart.status = .running ∧ s.restart.ip = 0 ∧
    s.restart.rb = 0 ∧ s.restart.output = [] ∧ s.restart.input = none ∧ ∀ a, s.restart.memRead a = 0

/-- The launch state exists exactly when the image and every patch fit (R173; D5), and it is the reset state with the image from
address 0, the patches in their order and the input value (R172, R174, R175; D22). -/
def Obligations.LaunchState : Prop :=
  ∀ (c : Config) (image : List Word) (patches : List (Nat × Word)) (input : Option Word), c.valid →
    (image.length ≤ c.memWords → (∀ p ∈ patches, p.1 < c.memWords) →
      ∃ s, launch c image patches input = .ok s ∧ s.ip = 0 ∧ s.rb = 0 ∧ s.status = .running ∧ s.output = [] ∧
        s.input = input ∧ s.config = c ∧
        s.mem.len = patches.foldl (fun n p => max n (p.1 + 1)) image.length ∧
        ∀ a, s.memRead a = ((patches.reverse.find? (fun p => p.1 == a)).map Prod.snd).getD (image.getD a 0)) ∧
    (c.memWords < image.length ∨ (∃ p ∈ patches, c.memWords ≤ p.1) →
      ∃ e, launch c image patches input = .error e)

/-- Every state a run reaches from a launch state meets the invariant of R20, with the canonical form of memory (the model's,
log 1). -/
def Obligations.RunsFromLaunchKeepInvariant : Prop :=
  ∀ (c : Config) (image : List Word) (patches : List (Nat × Word)) (input : Option Word) (s : State) (n : Nat),
    c.valid → launch c image patches input = .ok s → (s.run n).inv

/-- A machine launched with no image, or with one all 0, fails its first step with `DecodeError` (R178). -/
def Obligations.EmptyMemoryFailsToDecode : Prop :=
  ∀ s : State, s.status = .running → s.memRead s.ip.toNat = 0 → step s = .next (s.raise ⟨.decodeError, 0⟩)

/-- The decimal text of an image parses to the image (R64, R66). -/
def Obligations.ProgramTextRoundTrip : Prop :=
  ∀ image : List Word, image ≠ [] → parseProgram (programText image) = .ok image

/-- The lexical points of R64 (D21): white space around a token, leading zeros and `-0` are accepted; a leading `+`, an empty token,
a lone `-` and a numeral out of range are not integers. That the refusal carries the token as it stands is the model's choice
(log 11). -/
def Obligations.ProgramTextEdgeCases : Prop :=
  parseProgram [' ', '-', '7', '\t', ',', '0', '0', '7', '\n', ',', '-', '0'] = .ok [-7, 7, 0] ∧
  parseProgram ['+', '5'] = .error (.invalidToken ['+', '5']) ∧
  parseProgram [] = .error (.invalidToken []) ∧
  parseProgram ['1', ','] = .error (.invalidToken []) ∧
  parseProgram ['1', ',', ',', '2'] = .error (.invalidToken []) ∧
  parseProgram ['-'] = .error (.invalidToken ['-']) ∧
  parseToken ['9', '2', '2', '3', '3', '7', '2', '0', '3', '6', '8', '5', '4', '7', '7', '5', '8', '0', '7'] =
    .ok 9223372036854775807 ∧
  parseToken ['9', '2', '2', '3', '3', '7', '2', '0', '3', '6', '8', '5', '4', '7', '7', '5', '8', '0', '8'] =
    .error (.invalidToken ['9', '2', '2', '3', '3', '7', '2', '0', '3', '6', '8', '5', '4', '7', '7', '5', '8', '0', '8'])

/-- The numeric code of each failure reason (R140; D15). -/
def Obligations.FailureCodes : Prop :=
  FailReason.decodeError.code = 1 ∧ FailReason.invalidWriteTarget.code = 2 ∧ FailReason.outOfRangeJump.code = 3 ∧
  FailReason.numericOverflow.code = 4 ∧ FailReason.inputExhausted.code = 5 ∧ FailReason.invalidAddress.code = 6 ∧
  FailReason.memoryBounds.code = 7 ∧ FailReason.outputFull.code = 8

/-- The instruction that the host places with `withFetchWord` is the one the next step runs (the model's interface, log 5; R71). -/
def Obligations.PlacedInstructionRuns : Prop :=
  ∀ (s : State) (nbits w : Nat) (i : Instr), s.config.unusedDigitsFault = false → s.ip.toNat + 4 ≤ s.config.memWords →
    decodeTableWord nbits w = some i → step (s.withFetchWord nbits w) = exec i (s.withFetchWord nbits w)
end

