-- ==== Sys2Proof/Laws/Decode.lean ====
section
/-! SUPPORT. What an accepted word says, each decoder once. -/

namespace Sys2Proof

theorem Opcode.ofNumber_number (op : Opcode) : Opcode.ofNumber op.number = some op := by cases op <;> rfl

theorem Opcode.number_of_ofNumber {n : Nat} {op : Opcode} (h : Opcode.ofNumber n = some op) : op.number = n := by
  unfold Opcode.ofNumber at h
  split at h <;> first | (cases h; rfl) | cases h

theorem Mode.ofDigit_number (m : Mode) : Mode.ofDigit m.number = some m := by cases m <;> rfl

theorem Mode.number_of_ofDigit {d : Nat} {m : Mode} (h : Mode.ofDigit d = some m) : m.number = d := by
  unfold Mode.ofDigit at h
  split at h <;> first | (cases h; rfl) | cases h

/-- A sequence of two decoders succeeds when both do. -/
theorem except_bind_ok {ε α β : Type} {x : Except ε α} {f : α → Except ε β} {b : β} :
    (x >>= f) = .ok b ↔ ∃ a, x = .ok a ∧ f a = .ok b := by
  cases x <;> simp [bind, Except.bind]

/-- A decoded operand is the mode of its digit with its raw parameter (R55). -/
theorem decodeOperand_ok {w k : Nat} {p : Nat → Word} {o : Operand} :
    decodeOperand w p k = .ok o ↔ o.mode.number = digit w (k + 1) ∧ o.raw = p k := by
  unfold decodeOperand
  constructor
  · intro h
    split at h
    · next m hm => cases h; exact ⟨Mode.number_of_ofDigit hm, rfl⟩
    · cases h
  · rintro ⟨hm, hp⟩
    rw [← hm, Mode.ofDigit_number, ← hp]

theorem checkUnused_ok {strict : Bool} {w n : Nat} {u : Unit} :
    checkUnused strict w n = .ok u ↔ (strict = true → w / 10 ^ (n + 2) = 0) := by
  unfold checkUnused
  split <;> simp_all

theorem decode1_ok {strict : Bool} {w : Nat} {p : Nat → Word} {make : Operand → Instr} {i : Instr} :
    decode1 strict w p make = .ok i ↔
      ∃ x, decodeOperand w p 1 = .ok x ∧ checkUnused strict w 1 = .ok () ∧ make x = i := by
  simp [decode1, except_bind_ok, pure, Except.pure, checkUnused_ok]

theorem decode2_ok {strict : Bool} {w : Nat} {p : Nat → Word} {make : Operand → Operand → Instr} {i : Instr} :
    decode2 strict w p make = .ok i ↔
      ∃ x y, decodeOperand w p 1 = .ok x ∧ decodeOperand w p 2 = .ok y ∧ checkUnused strict w 2 = .ok () ∧
        make x y = i := by
  simp [decode2, except_bind_ok, pure, Except.pure, checkUnused_ok]

theorem decode3_ok {strict : Bool} {w : Nat} {p : Nat → Word} {make : Operand → Operand → Operand → Instr} {i : Instr} :
    decode3 strict w p make = .ok i ↔
      ∃ x y z, decodeOperand w p 1 = .ok x ∧ decodeOperand w p 2 = .ok y ∧ decodeOperand w p 3 = .ok z ∧
        checkUnused strict w 3 = .ok () ∧ make x y z = i := by
  simp [decode3, except_bind_ok, pure, Except.pure, checkUnused_ok]

theorem decode0_ok {strict : Bool} {w : Nat} {make i : Instr} :
    decode0 strict w make = .ok i ↔ checkUnused strict w 0 = .ok () ∧ make = i := by
  simp [decode0, except_bind_ok, pure, Except.pure, checkUnused_ok]

/-- Everything an accepted word says of its instruction (R51 to R57, R72). -/
theorem decode_ok {strict : Bool} {w : Word} {p : Nat → Word} {i : Instr} (h : decode strict w p = .ok i) :
    0 ≤ w.toInt ∧ Opcode.ofNumber (w.toNat % 100) = some i.opcode ∧ i.operands.length = i.opcode.arity ∧
      (∀ k o, i.operands[k]? = some o → decodeOperand w.toNat p (k + 1) = .ok o) ∧
      checkUnused strict w.toNat i.opcode.arity = .ok () := by
  unfold decode at h
  split at h
  · cases h
  · next hn =>
    refine ⟨Int.not_lt.1 hn, ?_⟩
    split at h
    · cases h
    all_goals
      next hop =>
        first
        | obtain ⟨x, y, z, h1, h2, h3, hu, rfl⟩ := decode3_ok.1 h
          refine ⟨hop, rfl, ?_, hu⟩
          rintro (_ | _ | _ | k) o ho <;> simp only [Instr.operands] at ho <;> cases ho <;> assumption
        | obtain ⟨x, y, h1, h2, hu, rfl⟩ := decode2_ok.1 h
          refine ⟨hop, rfl, ?_, hu⟩
          rintro (_ | _ | k) o ho <;> simp only [Instr.operands] at ho <;> cases ho <;> assumption
        | obtain ⟨x, h1, hu, rfl⟩ := decode1_ok.1 h
          refine ⟨hop, rfl, ?_, hu⟩
          rintro (_ | k) o ho <;> simp only [Instr.operands] at ho <;> cases ho <;> assumption
        | obtain ⟨hu, rfl⟩ := decode0_ok.1 h
          refine ⟨hop, rfl, ?_, hu⟩
          intro k o ho
          simp [Instr.operands] at ho

end Sys2Proof
end

