-- ==== Sys2Proof/Laws/State.lean ====
section
/-! SUPPORT. One lemma per field per update of State, true by unfolding. -/

namespace Sys2Proof.Machine

variable (s : State)

@[simp] theorem State.memWrite_mem (a : Nat) (v : Word) : (s.memWrite a v).mem = s.mem.write a v := rfl
@[simp] theorem State.memWrite_ip (a : Nat) (v : Word) : (s.memWrite a v).ip = s.ip := rfl
@[simp] theorem State.memWrite_rb (a : Nat) (v : Word) : (s.memWrite a v).rb = s.rb := rfl
@[simp] theorem State.memWrite_status (a : Nat) (v : Word) : (s.memWrite a v).status = s.status := rfl
@[simp] theorem State.memWrite_input (a : Nat) (v : Word) : (s.memWrite a v).input = s.input := rfl
@[simp] theorem State.memWrite_output (a : Nat) (v : Word) : (s.memWrite a v).output = s.output := rfl
@[simp] theorem State.memWrite_config (a : Nat) (v : Word) : (s.memWrite a v).config = s.config := rfl

@[simp] theorem State.setIp_mem (w : Word) : (s.setIp w).mem = s.mem := rfl
@[simp] theorem State.setIp_ip (w : Word) : (s.setIp w).ip = w := rfl
@[simp] theorem State.setIp_rb (w : Word) : (s.setIp w).rb = s.rb := rfl
@[simp] theorem State.setIp_status (w : Word) : (s.setIp w).status = s.status := rfl
@[simp] theorem State.setIp_input (w : Word) : (s.setIp w).input = s.input := rfl
@[simp] theorem State.setIp_output (w : Word) : (s.setIp w).output = s.output := rfl
@[simp] theorem State.setIp_config (w : Word) : (s.setIp w).config = s.config := rfl
@[simp] theorem State.setIp_memRead (w : Word) (x : Nat) : (s.setIp w).memRead x = s.memRead x := rfl

@[simp] theorem State.setRb_mem (w : Word) : (s.setRb w).mem = s.mem := rfl
@[simp] theorem State.setRb_ip (w : Word) : (s.setRb w).ip = s.ip := rfl
@[simp] theorem State.setRb_rb (w : Word) : (s.setRb w).rb = w := rfl
@[simp] theorem State.setRb_status (w : Word) : (s.setRb w).status = s.status := rfl
@[simp] theorem State.setRb_input (w : Word) : (s.setRb w).input = s.input := rfl
@[simp] theorem State.setRb_output (w : Word) : (s.setRb w).output = s.output := rfl
@[simp] theorem State.setRb_config (w : Word) : (s.setRb w).config = s.config := rfl
@[simp] theorem State.setRb_memRead (w : Word) (x : Nat) : (s.setRb w).memRead x = s.memRead x := rfl

@[simp] theorem State.append_mem (w : Word) : (s.append w).mem = s.mem := rfl
@[simp] theorem State.append_ip (w : Word) : (s.append w).ip = s.ip := rfl
@[simp] theorem State.append_rb (w : Word) : (s.append w).rb = s.rb := rfl
@[simp] theorem State.append_status (w : Word) : (s.append w).status = s.status := rfl
@[simp] theorem State.append_input (w : Word) : (s.append w).input = s.input := rfl
@[simp] theorem State.append_output (w : Word) : (s.append w).output = s.output ++ [w] := rfl
@[simp] theorem State.append_config (w : Word) : (s.append w).config = s.config := rfl
@[simp] theorem State.append_memRead (w : Word) (x : Nat) : (s.append w).memRead x = s.memRead x := rfl

@[simp] theorem State.halt_mem : (s.halt).mem = s.mem := rfl
@[simp] theorem State.halt_ip : (s.halt).ip = s.ip := rfl
@[simp] theorem State.halt_rb : (s.halt).rb = s.rb := rfl
@[simp] theorem State.halt_status : (s.halt).status = .halted := rfl
@[simp] theorem State.halt_input : (s.halt).input = s.input := rfl
@[simp] theorem State.halt_output : (s.halt).output = s.output := rfl
@[simp] theorem State.halt_config : (s.halt).config = s.config := rfl
@[simp] theorem State.halt_memRead (x : Nat) : (s.halt).memRead x = s.memRead x := rfl

@[simp] theorem State.raise_mem (f : Failure) : (s.raise f).mem = s.mem := rfl
@[simp] theorem State.raise_ip (f : Failure) : (s.raise f).ip = s.ip := rfl
@[simp] theorem State.raise_rb (f : Failure) : (s.raise f).rb = s.rb := rfl
@[simp] theorem State.raise_status (f : Failure) : (s.raise f).status = .failed f := rfl
@[simp] theorem State.raise_input (f : Failure) : (s.raise f).input = s.input := rfl
@[simp] theorem State.raise_output (f : Failure) : (s.raise f).output = s.output := rfl
@[simp] theorem State.raise_config (f : Failure) : (s.raise f).config = s.config := rfl
@[simp] theorem State.raise_memRead (f : Failure) (x : Nat) : (s.raise f).memRead x = s.memRead x := rfl

@[simp] theorem State.supplyInput_mem (w : Word) : (s.supplyInput w).mem = s.mem := rfl
@[simp] theorem State.supplyInput_ip (w : Word) : (s.supplyInput w).ip = s.ip := rfl
@[simp] theorem State.supplyInput_rb (w : Word) : (s.supplyInput w).rb = s.rb := rfl
@[simp] theorem State.supplyInput_status (w : Word) : (s.supplyInput w).status = s.status := rfl
@[simp] theorem State.supplyInput_input (w : Word) : (s.supplyInput w).input = some w := rfl
@[simp] theorem State.supplyInput_output (w : Word) : (s.supplyInput w).output = s.output := rfl
@[simp] theorem State.supplyInput_config (w : Word) : (s.supplyInput w).config = s.config := rfl
@[simp] theorem State.supplyInput_memRead (w : Word) (x : Nat) : (s.supplyInput w).memRead x = s.memRead x := rfl

end Sys2Proof.Machine
end

