-- ==== Sys2Proof/Laws/Memory.lean ====
section
/-! SUPPORT. What memory reads and writes do, in every memory, and that every operation keeps the canonical form. -/

namespace Sys2Proof.Machine

theorem lookupCell_insertCell_same (a : Nat) (v : Word) (cs : List (Nat × Word)) (h : ∀ c ∈ cs, c.1 ≠ a) :
    lookupCell a (insertCell a v cs) = v := by
  induction cs with
  | nil => simp [insertCell, lookupCell]
  | cons c cs ih =>
    obtain ⟨b, u⟩ := c
    have hb : b ≠ a := h (b, u) (by simp)
    have hcs : ∀ c ∈ cs, c.1 ≠ a := fun c hc => h c (by simp [hc])
    by_cases hab : a < b <;> simp [insertCell, lookupCell, hab, hb, ih hcs]

theorem lookupCell_insertCell_other (a b : Nat) (v : Word) (cs : List (Nat × Word)) (h : b ≠ a) :
    lookupCell b (insertCell a v cs) = lookupCell b cs := by
  induction cs with
  | nil => simp [insertCell, lookupCell, Ne.symm h]
  | cons c cs ih =>
    obtain ⟨x, u⟩ := c
    by_cases hab : a < x <;> simp [insertCell, lookupCell, hab, Ne.symm h, ih]

theorem lookupCell_filter (a : Nat) (p : Nat → Bool) (cs : List (Nat × Word)) :
    lookupCell a (cs.filter (fun c => p c.1)) = if p a then lookupCell a cs else 0 := by
  induction cs with
  | nil => simp [lookupCell]
  | cons c cs ih =>
    obtain ⟨b, u⟩ := c
    by_cases hb : p b <;> by_cases hba : b = a
    · subst hba; simp [lookupCell, hb]
    · simp [lookupCell, hb, hba, ih]
    · subst hba; simp [hb, ih]
    · simp [lookupCell, hb, hba, ih]

theorem lookupCell_setCell (a b : Nat) (v : Word) (cs : List (Nat × Word)) :
    lookupCell b (setCell a v cs) = if b = a then v else lookupCell b cs := by
  have hf := lookupCell_filter b (fun x => decide (x ≠ a)) cs
  by_cases hba : b = a
  · subst hba
    by_cases hv : v = 0
    · simp_all [setCell]
    · simp only [setCell, hv, if_false, if_true]
      exact lookupCell_insertCell_same _ _ _ (by simp)
  · by_cases hv : v = 0 <;> simp_all [setCell, lookupCell_insertCell_other]

/-- Everything a write does to a read, in every memory (R31, R34). -/
theorem Memory.read_write (m : Memory) (a b : Nat) (v : Word) :
    (m.write a v).read b = if b = a then v else m.read b := by
  have hf := lookupCell_filter b (fun x => decide (x < m.len)) m.cells
  by_cases hba : b = a
  · subst hba
    have : b < (m.write b v).len := by simp only [Memory.write]; split <;> omega
    simp only [Memory.read, this, if_true]
    simp [Memory.write, lookupCell_setCell]
  · simp only [Memory.read, Memory.write, lookupCell_setCell, hba, if_false]
    simp only [decide_eq_true_eq] at hf
    rw [hf]
    split <;> split <;> first | rfl | (split <;> first | rfl | omega)

theorem Memory.write_len (m : Memory) (a : Nat) (v : Word) :
    (m.write a v).len = if m.len ≤ a then a + 1 else m.len := rfl

theorem Memory.len_le_write_len (m : Memory) (a : Nat) (v : Word) : m.len ≤ (m.write a v).len := by
  rw [Memory.write_len]; split <;> omega

theorem State.memRead_memWrite (s : State) (a b : Nat) (v : Word) :
    (s.memWrite a v).memRead b = if b = a then v else s.memRead b :=
  Memory.read_write s.mem a b v

theorem mem_insertCell {c : Nat × Word} {a : Nat} {v : Word} {cs : List (Nat × Word)} :
    c ∈ insertCell a v cs ↔ c = (a, v) ∨ c ∈ cs := by
  induction cs with
  | nil => simp [insertCell]
  | cons d cs ih =>
    obtain ⟨b, u⟩ := d
    by_cases hab : a < b
    · simp [insertCell, hab]
    · simp only [insertCell, hab, if_false, List.mem_cons, ih]; tauto

theorem insertCell_rising {a : Nat} {v : Word} {cs : List (Nat × Word)}
    (h : cs.Pairwise (fun c d => c.1 < d.1)) (hne : ∀ c ∈ cs, c.1 ≠ a) :
    (insertCell a v cs).Pairwise (fun c d => c.1 < d.1) := by
  induction cs with
  | nil => simp [insertCell]
  | cons d cs ih =>
    obtain ⟨b, u⟩ := d
    rw [List.pairwise_cons] at h
    have hb : b ≠ a := hne (b, u) (by simp)
    by_cases hab : a < b
    · simp only [insertCell, hab, if_true, List.pairwise_cons]
      refine ⟨fun c hc => ?_, h⟩
      rcases List.mem_cons.1 hc with rfl | hc
      · exact hab
      · exact Nat.lt_trans hab (h.1 c hc)
    · simp only [insertCell, hab, if_false, List.pairwise_cons]
      refine ⟨fun c hc => ?_, ih h.2 (fun c hc => hne c (by simp [hc]))⟩
      rcases mem_insertCell.1 hc with rfl | hc
      · show b < a; omega
      · exact h.1 c hc

/-- A write keeps the canonical form. -/
theorem Memory.write_wf {m : Memory} (h : m.wf) (a : Nat) (v : Word) : (m.write a v).wf := by
  obtain ⟨hs, hz, hl⟩ := h
  have hfs : ((m.cells.filter (fun c => decide (c.1 < m.len))).filter (fun c => decide (c.1 ≠ a))).Pairwise
      (fun c d => c.1 < d.1) := (hs.filter _).filter _
  have hlen := Memory.len_le_write_len m a v
  have ha : a < (m.write a v).len := by rw [Memory.write_len]; split <;> omega
  refine ⟨?_, ?_, ?_⟩
  · by_cases hv : v = 0
    · simpa only [Memory.write, setCell, hv, if_true] using hfs
    · simp only [Memory.write, setCell, hv, if_false]
      exact insertCell_rising hfs (fun c hc => by simpa using (List.mem_filter.1 hc).2)
  · intro c hc
    by_cases hv : v = 0
    · simp only [Memory.write, setCell, hv, if_true, List.mem_filter] at hc
      exact hz c hc.1.1
    · simp only [Memory.write, setCell, hv, if_false, mem_insertCell, List.mem_filter] at hc
      rcases hc with rfl | hc
      · exact hv
      · exact hz c hc.1.1
  · intro c hc
    by_cases hv : v = 0
    · simp only [Memory.write, setCell, hv, if_true, List.mem_filter] at hc
      exact Nat.lt_of_lt_of_le (hl c hc.1.1) hlen
    · simp only [Memory.write, setCell, hv, if_false, mem_insertCell, List.mem_filter] at hc
      rcases hc with rfl | hc
      · exact ha
      · exact Nat.lt_of_lt_of_le (hl c hc.1.1) hlen

theorem mem_imageCells {c : Nat × Word} {ws : List Word} :
    ∀ {a : Nat}, c ∈ imageCells a ws → a ≤ c.1 ∧ c.1 < a + ws.length ∧ c.2 ≠ 0 := by
  induction ws with
  | nil => intro a h; simp [imageCells] at h
  | cons w ws ih =>
    intro a h
    by_cases hw : w = 0
    · simp only [imageCells, hw, if_true] at h
      have := ih h
      simp only [List.length_cons]; exact ⟨by omega, by omega, this.2.2⟩
    · simp only [imageCells, hw, if_false, List.mem_cons] at h
      rcases h with rfl | h
      · exact ⟨Nat.le_refl _, by simp, hw⟩
      · have := ih h
        simp only [List.length_cons]; exact ⟨by omega, by omega, this.2.2⟩

theorem imageCells_rising (ws : List Word) :
    ∀ a, (imageCells a ws).Pairwise (fun c d => c.1 < d.1) := by
  induction ws with
  | nil => intro a; simp [imageCells]
  | cons w ws ih =>
    intro a
    by_cases hw : w = 0
    · simpa only [imageCells, hw, if_true] using ih (a + 1)
    · simp only [imageCells, hw, if_false, List.pairwise_cons]
      refine ⟨fun c hc => ?_, ih (a + 1)⟩
      have := mem_imageCells hc
      show a < c.1; omega

/-- A loaded memory has the canonical form. -/
theorem Memory.ofImage_wf (image : List Word) : (Memory.ofImage image).wf := by
  refine ⟨imageCells_rising image 0, fun c hc => (mem_imageCells hc).2.2, fun c hc => ?_⟩
  have := mem_imageCells hc
  simpa [Memory.ofImage] using this.2.1

theorem lookupCell_eq_zero {a : Nat} {cs : List (Nat × Word)} (h : ∀ c ∈ cs, c.1 ≠ a) : lookupCell a cs = 0 := by
  induction cs with
  | nil => rfl
  | cons c cs ih =>
    obtain ⟨b, u⟩ := c
    have hb : b ≠ a := h (b, u) (by simp)
    simp [lookupCell, hb, ih (fun c hc => h c (by simp [hc]))]

theorem lookupCell_imageCells (ws : List Word) :
    ∀ a k, lookupCell (a + k) (imageCells a ws) = ws.getD k 0 := by
  induction ws with
  | nil => intro a k; simp [imageCells, lookupCell]
  | cons w ws ih =>
    intro a k
    cases k with
    | zero =>
      by_cases hw : w = 0
      · simp only [imageCells, hw, if_true]
        rw [lookupCell_eq_zero]
        · simp
        · intro c hc; have := mem_imageCells hc; omega
      · simp only [imageCells, hw, if_false, lookupCell, Nat.add_zero, if_true]; simp
    | succ k =>
      have e : a + (k + 1) = (a + 1) + k := by omega
      by_cases hw : w = 0
      · simp only [imageCells, hw, if_true]
        rw [e, ih]; simp
      · simp only [imageCells, hw, if_false, lookupCell]
        rw [if_neg (by omega), e, ih]; simp

/-- What a loaded memory reads as: word i of the image at address i, 0 from there on (R172). -/
theorem Memory.read_ofImage (image : List Word) (a : Nat) : (Memory.ofImage image).read a = image.getD a 0 := by
  have h := lookupCell_imageCells image 0 a
  rw [Nat.zero_add] at h
  simp only [Memory.read, Memory.ofImage, h]
  split
  · rfl
  · rw [List.getD_eq_default]; omega

/-- The memory of the reset state has the canonical form. -/
theorem State.reset_mem_wf : State.reset.mem.wf := by decide

end Sys2Proof.Machine
end

