-- ==== Sys2Proof/Laws/Operands.lean ====
section
/-! SUPPORT. What the resolver, the overflow rule and the common course of an instruction answer, each said once. -/

namespace Sys2Proof.Machine

/-- An address check answers the integer itself, inside the address space, or fails (R74). -/
theorem checkAddress_cases (ea : Int) :
    (0 ≤ ea ∧ ea ≤ addrMax ∧ checkAddress ea = .ok ea.toNat) ∨
      ((ea < 0 ∨ addrMax < ea) ∧ checkAddress ea = .error ⟨.invalidAddress, wrap64 ea⟩) := by
  by_cases h : 0 ≤ ea ∧ ea ≤ addrMax
  · exact .inl ⟨h.1, h.2, if_pos h⟩
  · exact .inr ⟨by omega, if_neg h⟩

/-- A resolved destination is the effective address, inside the address space and below `MEM_WORDS` (R76). -/
theorem State.writeTarget_ok {s : State} {o : Operand} {t : Nat} (h : s.writeTarget o = .ok t) :
    s.effectiveAddress o = some (t : Int) ∧ t ≤ addrMax ∧ t < s.config.memWords := by
  unfold State.writeTarget at h
  cases he : s.effectiveAddress o with
  | none => simp [he] at h
  | some ea =>
    rcases checkAddress_cases ea with ⟨h0, h1, hc⟩ | ⟨-, hc⟩
    · simp only [he, hc, bind, Except.bind, pure, Except.pure, throw, throwThe, MonadExceptOf.throw] at h
      split at h
      · cases h
        exact ⟨by rw [Int.toNat_of_nonneg h0], by omega, by assumption⟩
      · cases h
    · simp [he, hc, bind, Except.bind] at h

/-- A readable source is its raw parameter, or a cell inside the address space (R75). -/
theorem State.readOperand_ok {s : State} {o : Operand} {v : Word} (h : s.readOperand o = .ok v) :
    (s.effectiveAddress o = none ∧ v = o.raw) ∨
      ∃ a : Nat, s.effectiveAddress o = some (a : Int) ∧ a ≤ addrMax ∧ v = s.memRead a := by
  unfold State.readOperand at h
  cases he : s.effectiveAddress o with
  | none => simp only [he] at h; cases h; exact .inl ⟨rfl, rfl⟩
  | some ea =>
    rcases checkAddress_cases ea with ⟨h0, h1, hc⟩ | ⟨-, hc⟩
    · simp only [he, hc, bind, Except.bind, pure, Except.pure] at h
      cases h
      exact .inr ⟨ea.toNat, by rw [Int.toNat_of_nonneg h0], by omega, rfl⟩
    · simp [he, hc, bind, Except.bind] at h

/-- A fall-through address is `IP + 1 + n`, inside the address space (R73). -/
theorem State.fallThrough_ok {s : State} {n : Nat} {w : Word} (h : s.fallThrough n = .ok w) :
    w.toNat = s.ip.toNat + 1 + n ∧ s.ip.toNat + 1 + n ≤ addrMax := by
  unfold State.fallThrough at h
  split at h
  · next hle =>
    cases h
    refine ⟨?_, hle⟩
    rw [BitVec.toNat_ofNat, Nat.mod_eq_of_lt (Nat.lt_of_le_of_lt hle (by decide))]
  · cases h

/-- An instruction's end is always a next state (R150). -/
theorem State.settle_next (s : State) (r : Except Failure State) : ∃ t, s.settle r = .next t := by
  cases r with
  | ok t => exact ⟨t, rfl⟩
  | error f => exact ⟨s.raise f, rfl⟩

/-- A three-operand instruction fails with nothing changed but `STATUS`, or writes one cell and advances by 4 (R77, R150). -/
theorem State.binary_cases (s : State) (a b dst : Operand) (result : Word → Word → Except Failure Word) :
    (∃ f, s.binary a b dst result = .next (s.raise f)) ∨
      ∃ next v1 v2 t r, s.fallThrough 3 = .ok next ∧ s.readOperand a = .ok v1 ∧ s.readOperand b = .ok v2 ∧
        s.writeTarget dst = .ok t ∧ result v1 v2 = .ok r ∧
        s.binary a b dst result = .next ((s.memWrite t r).setIp next) := by
  unfold State.binary
  cases h0 : s.fallThrough 3 with
  | error f => exact .inl ⟨f, rfl⟩
  | ok next =>
    cases h1 : s.readOperand a with
    | error f => exact .inl ⟨f, rfl⟩
    | ok v1 =>
      cases h2 : s.readOperand b with
      | error f => exact .inl ⟨f, rfl⟩
      | ok v2 =>
        cases h3 : s.writeTarget dst with
        | error f => exact .inl ⟨f, rfl⟩
        | ok t =>
          cases h4 : result v1 v2 with
          | error f => exact .inl ⟨f, by simp [bind, Except.bind, h4, State.settle]⟩
          | ok r =>
            exact .inr ⟨next, v1, v2, t, r, rfl, rfl, rfl, rfl, h4,
              by simp [bind, Except.bind, h4, State.settle, pure, Except.pure]⟩

/-- A jump fails with nothing changed but `STATUS`, or writes `IP` only: the target if it is taken, else `IP + 3` (R110, R111). -/
theorem State.jump_cases (s : State) (cond target : Operand) (taken : Word → Bool) :
    (∃ f, s.jump cond target taken = .next (s.raise f)) ∨
      ∃ next v1 v2, s.fallThrough 2 = .ok next ∧ s.readOperand cond = .ok v1 ∧ s.readOperand target = .ok v2 ∧
        (taken v1 = true ∧ 0 ≤ v2.toInt ∧ s.jump cond target taken = .next (s.setIp v2) ∨
          taken v1 = false ∧ s.jump cond target taken = .next (s.setIp next)) := by
  unfold State.jump
  cases h0 : s.fallThrough 2 with
  | error f => exact .inl ⟨f, rfl⟩
  | ok next =>
    cases h1 : s.readOperand cond with
    | error f => exact .inl ⟨f, rfl⟩
    | ok v1 =>
      cases h2 : s.readOperand target with
      | error f => exact .inl ⟨f, rfl⟩
      | ok v2 =>
        cases h3 : taken v1 with
        | false =>
          exact .inr ⟨next, v1, v2, rfl, rfl, rfl, .inr ⟨h3, by simp [bind, Except.bind, h3, State.settle, pure, Except.pure]⟩⟩
        | true =>
          by_cases h4 : v2.toInt < 0
          · exact .inl ⟨⟨.outOfRangeJump, v2⟩,
              by simp [bind, Except.bind, h3, h4, State.settle, throw, throwThe, MonadExceptOf.throw]⟩
          · exact .inr ⟨next, v1, v2, rfl, rfl, rfl, .inl ⟨h3, by omega,
              by simp [bind, Except.bind, h3, h4, State.settle, pure, Except.pure]⟩⟩

end Sys2Proof.Machine
end

