-- ==== Sys2Proof/Laws/Exec.lean ====
section
/-! SUPPORT. What an instruction, a step and a placement can do, each said once. -/

namespace Sys2Proof.Machine

/-- A word that is not negative is an address, its own value. -/
theorem toNat_of_nonneg {w : Word} (h : 0 ≤ w.toInt) : w.toInt.toNat = w.toNat ∧ w.toNat ≤ addrMax := by
  have hc := BitVec.toInt_eq_toNat_cond w
  have hl := w.isLt
  simp only [addrMax]
  split at hc <;> omega

/-- A combined result exists exactly when both sources are readable and their result does not fail. -/
theorem State.combine_eq_some {s : State} {a b : Operand} {result : Word → Word → Except Failure Word} {v : Word} :
    s.combine a b result = some v ↔ ∃ x y, s.readOperand a = .ok x ∧ s.readOperand b = .ok y ∧ result x y = .ok v := by
  unfold State.combine
  cases s.readOperand a with
  | error f => simp
  | ok x =>
    cases s.readOperand b with
    | error f => simp
    | ok y => cases h : result x y <;> simp [Except.toOption, h]

theorem execInput_cases (dst : Operand) (s : State) :
    (∃ f, execInput dst s = .next (s.raise f)) ∨
      ∃ next t v, s.fallThrough 1 = .ok next ∧ s.writeTarget dst = .ok t ∧ s.input = some v ∧
        execInput dst s = .next ((s.memWrite t v).setIp next) := by
  unfold execInput
  cases h0 : s.fallThrough 1 with
  | error f => exact .inl ⟨f, rfl⟩
  | ok next =>
    cases h1 : s.writeTarget dst with
    | error f => exact .inl ⟨f, by simp [bind, Except.bind, State.settle]⟩
    | ok t =>
      cases h2 : s.input with
      | none => exact .inl ⟨⟨.inputExhausted, 0⟩, by
          simp [bind, Except.bind, State.settle, throw, throwThe, MonadExceptOf.throw]⟩
      | some v => exact .inr ⟨next, t, v, rfl, rfl, rfl, by
          simp [bind, Except.bind, State.settle, pure, Except.pure]⟩

theorem execOutput_cases (a : Operand) (s : State) :
    (∃ f, execOutput a s = .next (s.raise f)) ∨
      ∃ next v, s.fallThrough 1 = .ok next ∧ s.readOperand a = .ok v ∧ s.config.outCapacity ≠ some s.output.length ∧
        execOutput a s = .next ((s.append v).setIp next) := by
  unfold execOutput
  cases h0 : s.fallThrough 1 with
  | error f => exact .inl ⟨f, rfl⟩
  | ok next =>
    cases h1 : s.readOperand a with
    | error f => exact .inl ⟨f, by simp [bind, Except.bind, State.settle]⟩
    | ok v =>
      by_cases h2 : s.config.outCapacity = some s.output.length
      · exact .inl ⟨⟨.outputFull, v⟩, by
          simp [bind, Except.bind, h2, State.settle, throw, throwThe, MonadExceptOf.throw]⟩
      · exact .inr ⟨next, v, rfl, rfl, h2, by simp [bind, Except.bind, h2, State.settle, pure, Except.pure]⟩

theorem execAdjustBase_cases (a : Operand) (s : State) :
    (∃ f, execAdjustBase a s = .next (s.raise f)) ∨
      ∃ next v r, s.fallThrough 1 = .ok next ∧ s.readOperand a = .ok v ∧
        arith s.config.overflowPolicy (s.rb.toInt + v.toInt) = .ok r ∧
        execAdjustBase a s = .next ((s.setRb r).setIp next) := by
  unfold execAdjustBase
  cases h0 : s.fallThrough 1 with
  | error f => exact .inl ⟨f, rfl⟩
  | ok next =>
    cases h1 : s.readOperand a with
    | error f => exact .inl ⟨f, by simp [bind, Except.bind, State.settle]⟩
    | ok v =>
      cases h2 : arith s.config.overflowPolicy (s.rb.toInt + v.toInt) with
      | error f => exact .inl ⟨f, by simp [bind, Except.bind, h2, State.settle]⟩
      | ok r => exact .inr ⟨next, v, r, rfl, rfl, h2, by
          simp [bind, Except.bind, h2, State.settle, pure, Except.pure]⟩

/-- The one effect an instruction can have (R77): it fails, stores one word in its destination, appends, sets `RB`, sets `IP`
alone, or halts; where it advances, `IP` stays an address. -/
inductive Effect (i : Instr) (s : State) : State → Prop where
  | fails (f : Failure) : Effect i s (s.raise f)
  | stores (d : Operand) (t : Nat) (v ip : Word) (hd : i.destination = some d) (ht : s.writeTarget d = .ok t)
      (hip : ip.toNat ≤ addrMax) : Effect i s ((s.memWrite t v).setIp ip)
  | appends (a : Operand) (v ip : Word) (hi : i = .output a) (hc : s.config.outCapacity ≠ some s.output.length)
      (hip : ip.toNat ≤ addrMax) : Effect i s ((s.append v).setIp ip)
  | adjusts (a : Operand) (r ip : Word) (hi : i = .adjustBase a) (hip : ip.toNat ≤ addrMax) :
      Effect i s ((s.setRb r).setIp ip)
  | jumps (cond target : Operand) (ip : Word) (hi : i = .jumpIfTrue cond target ∨ i = .jumpIfFalse cond target)
      (hip : ip.toNat ≤ addrMax) : Effect i s (s.setIp ip)
  | halts (hi : i = .halt) : Effect i s s.halt

theorem fallThrough_le {s : State} {n : Nat} {w : Word} (h : s.fallThrough n = .ok w) : w.toNat ≤ addrMax := by
  obtain ⟨h1, h2⟩ := State.fallThrough_ok h
  rw [h1]; exact h2

theorem binary_effect {i : Instr} {s : State} {a b dst : Operand} (hd : i.destination = some dst)
    (result : Word → Word → Except Failure Word) : ∃ t, s.binary a b dst result = .next t ∧ Effect i s t := by
  rcases State.binary_cases s a b dst result with ⟨f, e⟩ | ⟨next, _, _, t, r, hn, _, _, ht, _, e⟩
  · exact ⟨_, e, .fails f⟩
  · exact ⟨_, e, .stores dst t r next hd ht (fallThrough_le hn)⟩

theorem jump_effect {i : Instr} {s : State} {cond target : Operand}
    (hi : i = .jumpIfTrue cond target ∨ i = .jumpIfFalse cond target) (taken : Word → Bool) :
    ∃ t, s.jump cond target taken = .next t ∧ Effect i s t := by
  rcases State.jump_cases s cond target taken with ⟨f, e⟩ | ⟨next, _, v, hn, _, _, ⟨_, hv, e⟩ | ⟨_, e⟩⟩
  · exact ⟨_, e, .fails f⟩
  · exact ⟨_, e, .jumps cond target v hi (toNat_of_nonneg hv).2⟩
  · exact ⟨_, e, .jumps cond target next hi (fallThrough_le hn)⟩

/-- Every instruction answers a next state, by exactly one effect: `exec` never faults and never refuses. -/
theorem exec_effect (i : Instr) (s : State) : ∃ t, exec i s = .next t ∧ Effect i s t := by
  cases i with
  | add a b dst => exact binary_effect rfl _
  | multiply a b dst => exact binary_effect rfl _
  | lessThan a b dst => exact binary_effect rfl _
  | equals a b dst => exact binary_effect rfl _
  | jumpIfTrue cond target => exact jump_effect (.inl rfl) _
  | jumpIfFalse cond target => exact jump_effect (.inr rfl) _
  | input dst =>
    rcases execInput_cases dst s with ⟨f, e⟩ | ⟨next, t, v, hn, ht, _, e⟩
    · exact ⟨_, e, .fails f⟩
    · exact ⟨_, e, .stores dst t v next rfl ht (fallThrough_le hn)⟩
  | output a =>
    rcases execOutput_cases a s with ⟨f, e⟩ | ⟨next, v, hn, _, hc, e⟩
    · exact ⟨_, e, .fails f⟩
    · exact ⟨_, e, .appends a v next rfl hc (fallThrough_le hn)⟩
  | adjustBase a =>
    rcases execAdjustBase_cases a s with ⟨f, e⟩ | ⟨next, v, r, hn, _, _, e⟩
    · exact ⟨_, e, .fails f⟩
    · exact ⟨_, e, .adjusts a r next rfl (fallThrough_le hn)⟩
  | halt => exact ⟨_, rfl, .halts rfl⟩

/-- A step that answers a next state was taken while running: it ran the fetched instruction, or failed to decode one (R70, R72). -/
theorem step_cases {s t : State} (h : step s = .next t) :
    s.status = .running ∧
      ((∃ i, s.fetch = .ok i ∧ exec i s = .next t ∧ Effect i s t) ∨ ∃ f, s.fetch = .error f ∧ t = s.raise f) := by
  unfold step at h
  split at h
  · next hs =>
    refine ⟨hs, ?_⟩
    split at h
    · next i hi =>
      obtain ⟨u, hu, he⟩ := exec_effect i s
      have hut : u = t := by rw [hu] at h; cases h; rfl
      subst hut
      exact .inl ⟨i, hi, hu, he⟩
    · next f hf => cases h; exact .inr ⟨f, hf, rfl⟩
  · cases h
  · cases h

/-- Placed words are read back, nothing below them changes, and only `MEM` does (R33). -/
theorem placeWords_read (ws : List Word) :
    ∀ (s : State) (a : Nat), a + ws.length ≤ s.config.memWords →
      (∀ k, k < ws.length → (s.placeWords a ws).memRead (a + k) = ws.getD k 0) ∧
      (∀ b, b < a → (s.placeWords a ws).memRead b = s.memRead b) ∧ ∃ m, s.placeWords a ws = { s with mem := m } := by
  induction ws with
  | nil => exact fun s a _ => ⟨fun k hk => by simp at hk, fun b _ => rfl, s.mem, rfl⟩
  | cons w ws ih =>
    intro s a h
    simp only [List.length_cons] at h
    unfold State.placeWords
    rw [if_pos (by omega)]
    obtain ⟨h1, h2, m, h3⟩ := ih (s.memWrite a w) (a + 1) (by simp only [State.memWrite_config]; omega)
    refine ⟨fun k hk => ?_, fun b hb => ?_, m, by rw [h3]; rfl⟩
    · cases k with
      | zero =>
        show ((s.memWrite a w).placeWords (a + 1) ws).memRead a = w
        rw [h2 a (by omega), State.memRead_memWrite, if_pos rfl]
      | succ k =>
        simp only [List.length_cons] at hk
        have := h1 k (by omega)
        rw [show a + (k + 1) = a + 1 + k by omega, this]
        simp
    · rw [h2 b (by omega), State.memRead_memWrite, if_neg (by omega)]

end Sys2Proof.Machine
end

