-- ==== Sys2Proof/Laws/PerInstr.lean ====
section
/-! SUPPORT. Facts about every instruction as syntax, one lemma per constructor. -/

namespace Sys2Proof.Laws.EncodeShape

/-- The encoding has `1 + arity` words (R50), of which the first is a canonical word: non-negative, below 100000, its last two
digits the opcode number (R51, R61). -/
def Statement (i : Instr) : Prop :=
  (encode i).length = i.length ∧ i.headWord < 100000 ∧ i.headWord % 100 = i.opcode.number

theorem mode_number_le (m : Mode) : m.number ≤ 2 := by cases m <;> decide

theorem number_lt (op : Opcode) : op.number < 100 := by cases op <;> decide

theorem three (a b c : Operand) :
    modeDigits 100 [a, b, c] = 100 * (a.mode.number + 10 * b.mode.number + 100 * c.mode.number) := by
  simp only [modeDigits]; omega

theorem two (a b : Operand) : modeDigits 100 [a, b] = 100 * (a.mode.number + 10 * b.mode.number) := by
  simp only [modeDigits]; omega

theorem one (a : Operand) : modeDigits 100 [a] = 100 * a.mode.number := by
  simp only [modeDigits]; omega

/-- The shape from the mode digits alone: an opcode number below 100 in front of at most three digits up to 2. -/
theorem of_digits {i : Instr} {m : Nat} (hl : i.operands.length = i.opcode.arity)
    (hm : modeDigits 100 i.operands = 100 * m) (hb : m < 1000) : Statement i := by
  have ho := number_lt i.opcode
  refine ⟨by simp [encode, Instr.length, hl]; omega, ?_, ?_⟩ <;> simp only [Instr.headWord, hm] <;> omega

theorem three_lt (a b c : Operand) : a.mode.number + 10 * b.mode.number + 100 * c.mode.number < 1000 := by
  have := mode_number_le a.mode
  have := mode_number_le b.mode
  have := mode_number_le c.mode
  omega

theorem two_lt (a b : Operand) : a.mode.number + 10 * b.mode.number < 1000 := by
  have := mode_number_le a.mode
  have := mode_number_le b.mode
  omega

theorem one_lt (a : Operand) : a.mode.number < 1000 := by
  have := mode_number_le a.mode
  omega

theorem add (a b dst : Operand) : Statement (.add a b dst) := of_digits rfl (three a b dst) (three_lt a b dst)
theorem multiply (a b dst : Operand) : Statement (.multiply a b dst) :=
  of_digits rfl (three a b dst) (three_lt a b dst)
theorem input (dst : Operand) : Statement (.input dst) := of_digits rfl (one dst) (one_lt dst)
theorem output (a : Operand) : Statement (.output a) := of_digits rfl (one a) (one_lt a)
theorem jumpIfTrue (cond target : Operand) : Statement (.jumpIfTrue cond target) :=
  of_digits rfl (two cond target) (two_lt cond target)
theorem jumpIfFalse (cond target : Operand) : Statement (.jumpIfFalse cond target) :=
  of_digits rfl (two cond target) (two_lt cond target)
theorem lessThan (a b dst : Operand) : Statement (.lessThan a b dst) :=
  of_digits rfl (three a b dst) (three_lt a b dst)
theorem equals (a b dst : Operand) : Statement (.equals a b dst) :=
  of_digits rfl (three a b dst) (three_lt a b dst)
theorem adjustBase (a : Operand) : Statement (.adjustBase a) := of_digits rfl (one a) (one_lt a)
theorem halt : Statement .halt := of_digits (m := 0) rfl rfl (by decide)

end Sys2Proof.Laws.EncodeShape
end

