-- ==== Sys2Proof/Tests/Slice0.lean ====
section
/-! SUPPORT. Tests. Expected results are the spec's own (95_test_vectors.md and the worked examples of the rules), except where
a comment says otherwise. The theorems named witness_<statement> show a state and operands that meet all hypotheses of that
statement together. -/

namespace Sys2Proof.Tests

open Sys2Proof.Machine

/-- The machine with an image loaded. -/
def boot (image : List Word) : State := { State.reset with mem := Memory.ofImage image }

/-- The next state of an outcome. -/
def after : Host.Outcome State Fault Refusal → Option State
  | .next t => some t
  | .fault _ => none
  | .refused _ => none

def pos (w : Word) : Operand := ⟨.position, w⟩
def imm (w : Word) : Operand := ⟨.immediate, w⟩
def rel (w : Word) : Operand := ⟨.relative, w⟩

/-! ## Well-formedness: a term that each check refuses -/

theorem test_add_immediate_destination_is_ill_formed : (Instr.add (imm 1) (imm 1) (imm 0)).wellFormed = false := by decide
theorem test_multiply_immediate_destination_is_ill_formed :
    (Instr.multiply (pos 0) (pos 0) (imm 0)).wellFormed = false := by decide
theorem test_input_immediate_destination_is_ill_formed : (Instr.input (imm 0)).wellFormed = false := by decide
theorem test_lessThan_immediate_destination_is_ill_formed :
    (Instr.lessThan (pos 0) (pos 0) (imm 0)).wellFormed = false := by decide
theorem test_equals_immediate_destination_is_ill_formed :
    (Instr.equals (pos 0) (pos 0) (imm 0)).wellFormed = false := by decide
theorem test_destinations_of_other_modes_are_well_formed :
    (Instr.add (imm 1) (imm 1) (rel 0)).wellFormed = true ∧ (Instr.output (imm 0)).wellFormed = true := by decide

/-! ## Decoding: a word of each instruction, written from R51 and R53 (ABCDE: DE opcode, C, B, A the modes) -/

-- 21101: A = 2, B = 1, C = 1, DE = 01
theorem test_decode_add : decodeWords false [21101, 5, 6, 7] = .ok (.add (imm 5) (imm 6) (rel 7), []) := by decide
-- 01002, the document's 1002,4,3,4
theorem test_decode_multiply : decodeWords false [1002, 4, 3, 4, 33] = .ok (.multiply (pos 4) (imm 3) (pos 4), [33]) := by
  decide
-- 203: C = 2, DE = 03
theorem test_decode_input : decodeWords false [203, 1] = .ok (.input (rel 1), []) := by decide
-- 204, the document's 204,-1
theorem test_decode_output : decodeWords false [204, -1] = .ok (.output (rel (-1)), []) := by decide
-- 2105: B = 2, C = 1, DE = 05
theorem test_decode_jumpIfTrue : decodeWords false [2105, 3, 4] = .ok (.jumpIfTrue (imm 3) (rel 4), []) := by decide
-- 1006, the document's 1006,101,0
theorem test_decode_jumpIfFalse : decodeWords false [1006, 101, 0] = .ok (.jumpIfFalse (pos 101) (imm 0), []) := by decide
-- 21107: A = 2, B = 1, C = 1, DE = 07
theorem test_decode_lessThan : decodeWords false [21107, 1, 2, 3] = .ok (.lessThan (imm 1) (imm 2) (rel 3), []) := by decide
-- 1008, the document's 1008,100,16,101
theorem test_decode_equals : decodeWords false [1008, 100, 16, 101] = .ok (.equals (pos 100) (imm 16) (pos 101), []) := by
  decide
-- 109, the document's 109,1
theorem test_decode_adjustBase : decodeWords false [109, 1] = .ok (.adjustBase (imm 1), []) := by decide
theorem test_decode_halt : decodeWords false [99] = .ok (.halt, []) := by decide

-- section 2.1: unused digits ignored, or refused with UNUSED_DIGITS_FAULT
theorem test_decode_unused_digits :
    decodeWords false [1099] = .ok (.halt, []) ∧ decodeWords true [1099] = .error .unusedDigit ∧
    decodeWords false [100001, 0, 0, 0] = .ok (.add (pos 0) (pos 0) (pos 0), []) ∧
    decodeWords true [100001, 0, 0, 0] = .error .unusedDigit ∧ decodeWords true [104, 3] = .ok (.output (imm 3), []) := by
  decide
-- section 2.1: each refusal by its name
theorem test_decode_refusals :
    decodeWords false [0] = .error (.unknownOpcode 0) ∧ decodeWords false [98] = .error (.unknownOpcode 98) ∧
    decodeWords false [-99] = .error .negativeWord ∧ decodeWords false [301, 0, 0, 0] = .error (.illegalMode 1) ∧
    decodeWords false [3001, 0, 0, 0] = .error (.illegalMode 2) ∧ decodeWords false [30001, 0, 0, 0] = .error (.illegalMode 3) ∧
    decodeWords false [1, 0, 0] = .error .truncated := by decide
-- the encoder against the document's 204,-1 and 21107
theorem test_encode :
    encode (.output (rel (-1))) = [204, -1] ∧ encode (.lessThan (imm 1) (imm 2) (rel 3)) = [21107, 1, 2, 3] := by decide
-- the host's numbering: word 0 in bits 63..0, word 1 in bits 127..64 (log 5)
theorem test_decodeTableWord :
    decodeTableWord 128 (104 + 7 * 18446744073709551616) = some (.output (imm 7)) ∧
    decodeTableWord 64 1 = some (.add (pos 0) (pos 0) (pos 0)) ∧ decodeTableWord 64 0 = none := by decide

/-! ## Memory -/

-- a 0 is not listed; a write beyond LEN grows it (R31)
theorem test_memory_write_zero_unlists : ((boot [7, 8]).memWrite 1 0).mem = ⟨[(0, 7)], 2⟩ := by decide
theorem test_memory_write_grows : ((boot [7]).memWrite 3 5).mem = ⟨[(0, 7), (3, 5)], 4⟩ := by decide
theorem test_memory_read_beyond_len : (boot [7]).memRead 50 = 0 := by decide

/-! ## One step of each instruction (95_test_vectors.md section 2; the document's cases) -/

-- 1001,5,1,5,99,41: destination = source cell
theorem test_add_increments :
    (after (step (boot [1001, 5, 1, 5, 99, 41]))).map (fun t => (t.memRead 5, t.ip)) = some (42, 4) := by decide
-- 1101,INT_MAX,1,0,99 under Fault
theorem test_add_overflow_fails :
    (after (step (boot [1101, 9223372036854775807, 1, 0, 99]))).map (fun t => (t.status, t.ip, t.mem.len)) =
      some (.failed ⟨.numericOverflow, -9223372036854775808⟩, 0, 5) := by decide
-- 1102,-3,7,0,99
theorem test_multiply_signed :
    (after (step (boot [1102, -3, 7, 0, 99]))).map (fun t => (t.memRead 0, t.ip)) = some (-21, 4) := by decide
-- 1102,3037000500,3037000500,0,99 under Wrap
theorem test_multiply_wraps :
    (after (step { boot [1102, 3037000500, 3037000500, 0, 99] with
      config := { Config.standard with overflowPolicy := .wrap } })).map (fun t => (t.memRead 0, t.ip)) =
      some (-9223372036709301616, 4) := by decide
-- 109,5,203,1,99 with IN = -8, at its second instruction
theorem test_input_relative :
    (after (step { boot [109, 5, 203, 1, 99] with ip := 2, rb := 5, input := some (-8) })).map
      (fun t => (t.memRead 6, t.ip, t.mem.len, t.input)) = some (-8, 4, 7, some (-8)) := by decide
-- 103,0,99 with IN empty: resolution precedes the input check
theorem test_input_immediate_before_empty :
    (after (step (boot [103, 0, 99]))).map (fun t => (t.status, t.ip)) = some (.failed ⟨.invalidWriteTarget, 0⟩, 0) := by
  decide
-- 4,50,99: a read does not grow storage
theorem test_output_beyond_len :
    (after (step (boot [4, 50, 99]))).map (fun t => (t.output, t.mem.len, t.ip)) = some ([0], 3, 2) := by decide
-- 104,1,104,2,99 with OUT_CAPACITY = 1, at its second instruction
theorem test_output_full :
    (after (step { boot [104, 1, 104, 2, 99] with
      ip := 2, output := [1], config := { Config.standard with outCapacity := some 1 } })).map
      (fun t => (t.status, t.output, t.ip)) = some (.failed ⟨.outputFull, 2⟩, [1], 2) := by decide
-- 1105,-1,4: any non-zero word is true
theorem test_jumpIfTrue_negative_is_true : (after (step (boot [1105, -1, 4, 99]))).map State.ip = some 4 := by decide
-- 105,0,-7,99: the target of an untaken jump is resolved
theorem test_jumpIfTrue_untaken_target_resolved :
    (after (step (boot [105, 0, -7, 99]))).map State.status = some (.failed ⟨.invalidAddress, -7⟩) := by decide
-- 6,50,3,5: cond never written, target through cell 3
theorem test_jumpIfFalse_computed : (after (step (boot [6, 50, 3, 5]))).map State.ip = some 5 := by decide
-- 1106,0,-1,99
theorem test_jumpIfFalse_negative_target :
    (after (step (boot [1106, 0, -1, 99]))).map (fun t => (t.status, t.ip)) = some (.failed ⟨.outOfRangeJump, -1⟩, 0) := by
  decide
-- 1107,-1,0,0,99: signed
theorem test_lessThan_signed : (after (step (boot [1107, -1, 0, 0, 99]))).map (fun t => t.memRead 0) = some 1 := by decide
-- 1107,2,1,20,99: a 0 is stored
theorem test_lessThan_stores_zero :
    (after (step (boot [1107, 2, 1, 20, 99]))).map (fun t => (t.memRead 20, t.mem.len)) = some (0, 21) := by decide
-- 8,100,200,0,99: never-written cells are equal
theorem test_equals_unwritten : (after (step (boot [8, 100, 200, 0, 99]))).map (fun t => t.memRead 0) = some 1 := by decide
-- 1108,5,-5,0,99
theorem test_equals_sign : (after (step (boot [1108, 5, -5, 0, 99]))).map (fun t => t.memRead 0) = some 0 := by decide
-- 109,4,209,1,99,100 at its second instruction: resolved with the old base
theorem test_adjustBase_old_base :
    (after (step { boot [109, 4, 209, 1, 99, 100] with ip := 2, rb := 4 })).map (fun t => (t.rb, t.ip)) = some (104, 4) := by
  decide
-- 109,INT_MIN,109,-1,99 at its second instruction, under Fault
theorem test_adjustBase_overflow :
    (after (step { boot [109, -9223372036854775808, 109, -1, 99] with ip := 2, rb := -9223372036854775808 })).map
      (fun t => (t.status, t.rb, t.ip)) =
      some (.failed ⟨.numericOverflow, 9223372036854775807⟩, -9223372036854775808, 2) := by decide
-- 99
theorem test_halt : (after (step (boot [99]))).map (fun t => (t.status, t.ip, t.memRead 0)) = some (.halted, 0, 99) := by
  decide
-- section 2.11: Halt at ADDR_MAX
theorem test_halt_at_top :
    (after (step { (boot []).memWrite 9223372036854775807 99 with ip := 9223372036854775807 })).map
      (fun t => (t.status, t.ip)) = some (.halted, 9223372036854775807) := by decide

/-! ## The step and the host's side -/

-- section 2.10: 11001,-1,1,0 reports operand 1; 11101,INT_MAX,1,0 reports the destination, not the overflow
theorem test_failure_order :
    (after (step (boot [11001, -1, 1, 0]))).map State.status = some (.failed ⟨.invalidAddress, -1⟩) ∧
    (after (step (boot [11101, 9223372036854775807, 1, 0]))).map State.status = some (.failed ⟨.invalidWriteTarget, 0⟩) := by
  decide
-- section 2.11: Output at ADDR_MAX - 1 does not fit below the top
theorem test_top_of_address_space :
    (after (step { (boot []).memWrite 9223372036854775806 104 with ip := 9223372036854775806 })).map
      (fun t => (t.status, t.ip)) =
      some (.failed ⟨.invalidAddress, -9223372036854775808⟩, 9223372036854775806) := by decide
-- section 2.12: MEM_WORDS = 16
theorem test_memory_bounds :
    (after (step { boot [1101, 1, 1, 16, 99] with config := { Config.standard with memWords := 16 } })).map
      (fun t => (t.status, t.mem.len)) = some (.failed ⟨.memoryBounds, 16⟩, 5) := by decide
-- R178: the reset memory holds no program
theorem test_reset_step_fails : (after (step State.reset)).map State.status = some (.failed ⟨.decodeError, 0⟩) := by decide
theorem test_no_step_when_halted : after (step { boot [99] with status := .halted }) = none := by decide
theorem test_withFetchWord : (after (step (State.reset.withFetchWord 128 (104 + 7 * 18446744073709551616)))).map State.output =
    some [7] := by decide
-- section 2.13: patches (1,4), (2,4), (10,7)
theorem test_launch_patches :
    (launch Config.standard [1, 0, 0, 0, 99] [(1, 4), (2, 4), (10, 7)] none).map (fun s => (s.mem, s.ip)) =
      .ok (⟨[(0, 1), (1, 4), (2, 4), (4, 99), (10, 7)], 11⟩, 0) := by decide
theorem test_parse_error :
    launchText Config.standard ['1', ','] [] none = .error (.parse (.invalidToken [])) := by decide
-- R62: 204 lists as Output [RB+p1]; R67: [RB-n]
theorem test_listing :
    instrListing (.output (rel (-1))) = ['O', 'u', 't', 'p', 'u', 't', ' ', '[', 'R', 'B', '-', '1', ']'] := by decide

/-! ## Witnesses -/

/-- Three cells at 5, 6, 7 (the last not written), `RB` at 5, an input value. -/
def sample : State := { boot [0, 0, 0, 0, 0, 20, 22] with rb := 5, input := some 77 }

/-- The same at the top: the last address at which an instruction of `n` words fits is `ADDR_MAX - n`. -/
def sampleAt (ip : Word) : State := { sample with ip := ip }

/-- A sample with finite memory and output. -/
def small : State :=
  { boot [0, 0, 0, 0] with output := [9], config := ⟨16, .wrap, true, some 1⟩ }

theorem witness_StrictDecodeThenEncode : decodeWords true [104, 3, 99] = .ok (.output (imm 3), [99]) := by decide
theorem witness_DecodedFieldsAreDecimalDigits :
    decode false 21107 (fun _ => 6) = .ok (.lessThan (imm 6) (imm 6) (rel 6)) ∧
    (Instr.lessThan (imm 6) (imm 6) (rel 6)).operands[2]? = some (rel 6) := by decide
theorem witness_DecodeReadsFiveDigits :
    0 ≤ (100001 : Word).toInt ∧ 0 ≤ (9223372036854700001 : Word).toInt ∧
    (100001 : Word).toNat % 100000 = (9223372036854700001 : Word).toNat % 100000 := by decide
theorem witness_DecodeAcceptsExactly :
    0 ≤ (22202 : Word).toInt ∧ Opcode.multiply.number = (22202 : Word).toNat % 100 ∧ digit (22202 : Word).toNat 4 ≤ 2 ∧
    (22202 : Word).toNat / 10 ^ 5 = 0 := by decide
theorem witness_OperandRoles :
    (Instr.input (pos 3)).opcode.writes = some 1 ∧ (Instr.equals (pos 1) (pos 2) (pos 3)).opcode.writes = some 3 ∧
    Instr.halt.opcode.writes = none := by decide
theorem witness_ImmediateDestinationFailsAtResolution :
    (Instr.input (imm 0)).wellFormed = false ∧ decode true 103 (fun _ => 0) = .ok (.input (imm 0)) ∧
    decode false 911101 (fun _ => 0) = .ok (.add (imm 0) (imm 0) (imm 0)) ∧
    (Instr.add (pos 5) (rel 1) (imm 0)).destination = some (imm 0) ∧
    (sampleAt 9223372036854775803).ip.toNat + (Instr.add (pos 5) (rel 1) (imm 0)).length ≤ addrMax ∧
    (sampleAt 9223372036854775803).readOperand (pos 5) = .ok 20 ∧
    (sampleAt 9223372036854775803).readOperand (rel 1) = .ok 22 := by decide

-- the last writable address, a write that grows, one that does not
theorem witness_MemWriteEffect :
    addrMax < sample.config.memWords ∧ sample.mem.len ≤ 8 ∧ 8 < 9 ∧ 9 < sample.config.memWords ∧ 6 < sample.mem.len ∧
    sample.writeTarget (pos 9223372036854775807) = .ok addrMax ∧ small.writeTarget (pos 15) = .ok 15 := by decide
theorem witness_SourceOperandValue :
    0 ≤ (9223372036854775807 : Word).toInt ∧ (-1 : Word).toInt < 0 ∧
    sample.rb.toInt + (-5 : Word).toInt = 0 ∧ sample.rb.toInt + (9223372036854775802 : Word).toInt = addrMax ∧
    sample.rb.toInt + (-6 : Word).toInt < 0 ∧ (addrMax : Int) < sample.rb.toInt + (9223372036854775803 : Word).toInt := by
  decide
theorem witness_DestinationOperandTarget :
    0 ≤ (15 : Word).toInt ∧ (15 : Word).toNat < small.config.memWords ∧ small.config.memWords ≤ (16 : Word).toNat ∧
    (-1 : Word).toInt < 0 ∧ sample.rb.toInt + (-5 : Word).toInt = 0 ∧
    sample.rb.toInt + (9223372036854775802 : Word).toInt = addrMax ∧
    sample.rb.toInt + (9223372036854775802 : Word).toInt < sample.config.memWords ∧
    small.rb.toInt + (16 : Word).toInt = small.config.memWords ∧ sample.rb.toInt + (-6 : Word).toInt < 0 ∧
    (addrMax : Int) < sample.rb.toInt + (9223372036854775803 : Word).toInt := by decide
theorem witness_ArithmeticResult :
    (intMin ≤ intMin ∧ intMin ≤ intMax) ∧ (intMin ≤ intMax ∧ intMax ≤ intMax) ∧ intMin - 1 < intMin ∧ intMax < intMax + 1 := by
  decide

theorem witness_AddStoresSum :
    (sampleAt 9223372036854775803).ip.toNat + 4 ≤ addrMax ∧
    (sampleAt 9223372036854775803).readOperand (imm 9223372036854775785) = .ok 9223372036854775785 ∧
    (sampleAt 9223372036854775803).readOperand (pos 6) = .ok 22 ∧
    (sampleAt 9223372036854775803).writeTarget (rel 2) = .ok 7 ∧
    (9223372036854775785 : Word).toInt + (22 : Word).toInt = intMax := by decide
theorem witness_MultiplyStoresProduct :
    sample.ip.toNat + 4 ≤ addrMax ∧ sample.readOperand (imm (-9223372036854775808)) = .ok (-9223372036854775808) ∧
    sample.readOperand (imm 1) = .ok 1 ∧ sample.writeTarget (pos 0) = .ok 0 ∧
    (-9223372036854775808 : Word).toInt * (1 : Word).toInt = intMin := by decide
theorem witness_InputStoresInputValue :
    (sampleAt 9223372036854775805).ip.toNat + 2 ≤ addrMax ∧ (sampleAt 9223372036854775805).writeTarget (pos 0) = .ok 0 ∧
    (sampleAt 9223372036854775805).input = some 77 := by decide
theorem witness_OutputAppendsValue :
    sample.ip.toNat + 2 ≤ addrMax ∧ sample.readOperand (pos 6) = .ok 22 ∧
    sample.config.outCapacity ≠ some sample.output.length := by decide
theorem witness_JumpIfTrueSetsIp :
    (sampleAt 9223372036854775804).ip.toNat + 3 ≤ addrMax ∧ (sampleAt 9223372036854775804).readOperand (pos 5) = .ok 20 ∧
    (sampleAt 9223372036854775804).readOperand (pos 0) = .ok 0 ∧ (20 : Word) ≠ 0 ∧ 0 ≤ (0 : Word).toInt := by decide
theorem witness_JumpIfFalseSetsIp :
    sample.ip.toNat + 3 ≤ addrMax ∧ sample.readOperand (pos 0) = .ok 0 ∧
    sample.readOperand (imm 9223372036854775807) = .ok 9223372036854775807 ∧ 0 ≤ (9223372036854775807 : Word).toInt ∧
    sample.readOperand (pos 5) = .ok 20 ∧ (20 : Word) ≠ 0 := by decide
theorem witness_LessThanStoresTruth :
    sample.ip.toNat + 4 ≤ addrMax ∧ sample.readOperand (imm (-1)) = .ok (-1) ∧ sample.readOperand (pos 5) = .ok 20 ∧
    sample.writeTarget (rel 2) = .ok 7 := by decide
theorem witness_EqualsStoresTruth :
    sample.ip.toNat + 4 ≤ addrMax ∧ sample.readOperand (imm 20) = .ok 20 ∧ sample.readOperand (pos 5) = .ok 20 ∧
    sample.writeTarget (pos 5) = .ok 5 := by decide
theorem witness_AdjustBaseAddsToBase :
    sample.ip.toNat + 2 ≤ addrMax ∧ sample.readOperand (imm 9223372036854775802) = .ok 9223372036854775802 ∧
    sample.rb.toInt + (9223372036854775802 : Word).toInt = intMax := by decide
-- for each of the two policies and each of the three instructions
theorem witness_OverflowFailsOrWraps :
    sample.config.overflowPolicy = .fault ∧ small.config.overflowPolicy = .wrap ∧
    sample.ip.toNat + 4 ≤ addrMax ∧ small.ip.toNat + 4 ≤ addrMax ∧
    sample.readOperand (imm 9223372036854775807) = .ok 9223372036854775807 ∧ sample.readOperand (imm 2) = .ok 2 ∧
    small.readOperand (imm (-9223372036854775808)) = .ok (-9223372036854775808) ∧
    small.readOperand (imm (-1)) = .ok (-1) ∧ sample.writeTarget (pos 0) = .ok 0 ∧ small.writeTarget (pos 0) = .ok 0 ∧
    intMax < (9223372036854775807 : Word).toInt + (2 : Word).toInt ∧
    (-9223372036854775808 : Word).toInt + (-1 : Word).toInt < intMin ∧
    intMax < (9223372036854775807 : Word).toInt * (2 : Word).toInt ∧
    intMax < (-9223372036854775808 : Word).toInt * (-1 : Word).toInt ∧
    intMax < sample.rb.toInt + (9223372036854775807 : Word).toInt ∧
    ({ small with rb := -1 } : State).rb.toInt + (-9223372036854775808 : Word).toInt < intMin := by decide
theorem witness_AddMultiplyCommute : sample.readOperand (pos 5) = .ok 20 ∧ sample.readOperand (rel 1) = .ok 22 := by decide
theorem witness_ComparisonTrichotomy :
    sample.ip.toNat + 4 ≤ addrMax ∧ sample.readOperand (pos 5) = .ok 20 ∧ sample.readOperand (pos 6) = .ok 22 ∧
    sample.writeTarget (pos 7) = .ok 7 := by decide

theorem witness_TopOfAddressSpaceFails :
    Instr.output (imm 1) ≠ .halt ∧
    addrMax < (sampleAt 9223372036854775806).ip.toNat + (Instr.output (imm 1)).length := by decide
theorem witness_FirstUnresolvedOperandIsReported :
    sample.ip.toNat + (Instr.add (pos 5) (pos (-1)) (imm 0)).length ≤ addrMax ∧
    sample.resolve (.add (pos 5) (pos (-1)) (imm 0)) 1 (pos 5) = .ok () ∧
    sample.resolve (.add (pos 5) (pos (-1)) (imm 0)) 2 (pos (-1)) = .error ⟨.invalidAddress, -1⟩ ∧
    sample.resolve (.input (imm 4)) 1 (imm 4) = .error ⟨.invalidWriteTarget, 4⟩ := by decide
theorem witness_NegativeJumpTargetFails :
    sample.ip.toNat + 3 ≤ addrMax ∧ sample.readOperand (pos 5) = .ok 20 ∧ (20 : Word) ≠ 0 ∧
    sample.readOperand (pos 0) = .ok 0 ∧ sample.readOperand (imm (-1)) = .ok (-1) ∧ (-1 : Word).toInt < 0 := by decide
theorem witness_PortFailures :
    small.ip.toNat + 2 ≤ addrMax ∧ small.writeTarget (pos 15) = .ok 15 ∧ small.input = none ∧
    small.readOperand (pos 16) = .ok 0 ∧ small.config.outCapacity = some small.output.length := by decide
theorem witness_FailingStepChangesStatusOnly :
    (after (step (boot [103, 0]))).map State.status = some (.failed ⟨.invalidWriteTarget, 0⟩) := by decide
theorem witness_FailureReasonsByInstruction :
    sample.status = .running ∧
    (after (exec (.add (pos 5) (pos 6) (imm 0)) sample)).map State.status = some (.failed ⟨.invalidWriteTarget, 0⟩) := by decide
theorem witness_SixReasonsByDefault :
    State.reset.config.memWords = 9223372036854775808 ∧ State.reset.config.outCapacity = none ∧
    (after (step State.reset)).map State.status = some (.failed ⟨.decodeError, 0⟩) := by decide

theorem witness_StoringInstructionFrame :
    Instr.input (rel 2) ∈ [Instr.add (pos 5) (pos 6) (rel 2), .multiply (pos 5) (pos 6) (rel 2),
      .lessThan (pos 5) (pos 6) (rel 2), .equals (pos 5) (pos 6) (rel 2), .input (rel 2)] ∧
    (after (exec (.input (rel 2)) sample)).isSome = true ∧ sample.writeTarget (rel 2) = .ok 7 ∧ 6 ≠ 7 ∧
    (after (exec (.input (imm 2)) sample)).isSome = true ∧
    sample.writeTarget (imm 2) = .error ⟨.invalidWriteTarget, 2⟩ := by decide
theorem witness_JumpFrame :
    Instr.jumpIfFalse (pos 0) (pos 5) ∈ [Instr.jumpIfTrue (pos 0) (pos 5), .jumpIfFalse (pos 0) (pos 5)] ∧
    (after (exec (.jumpIfFalse (pos 0) (pos 5)) sample)).isSome = true := by decide
theorem witness_OutputBaseHaltFrame :
    (after (exec (.output (pos 5)) sample)).isSome = true ∧ (after (exec (.adjustBase (pos 5)) sample)).isSome = true ∧
    (after (exec .halt sample)).isSome = true ∧ Instr.halt ∈ [Instr.output (pos 5), .adjustBase (pos 5), .halt] ∧
    Instr.output (pos 5) ≠ .adjustBase (pos 5) ∧ Instr.halt ≠ .output (pos 5) := by decide

theorem witness_StepRunsDecodedInstruction :
    (boot [104, 7]).status = .running ∧
    decode (boot [104, 7]).config.unusedDigitsFault ((boot [104, 7]).memRead (boot [104, 7]).ip.toNat)
      (fun k => (boot [104, 7]).memRead ((boot [104, 7]).ip.toNat + k)) = .ok (.output (imm 7)) := by decide
theorem witness_IllegalWordIsDecodeError :
    State.reset.status = .running ∧
    decode State.reset.config.unusedDigitsFault (State.reset.memRead State.reset.ip.toNat)
      (fun k => State.reset.memRead (State.reset.ip.toNat + k)) = .error (.unknownOpcode 0) := by decide
theorem witness_IllegalModeDigitFails :
    (boot [30001]).status = .running ∧ 0 ≤ ((boot [30001]).memRead 0).toInt ∧
    Opcode.add.number = ((boot [30001]).memRead 0).toNat % 100 ∧ 3 ≤ Opcode.add.arity ∧
    2 < digit ((boot [30001]).memRead 0).toNat 4 := by decide
theorem no_opcode_numbered_98 (op : Opcode) : op.number ≠ 98 := by cases op <;> decide
theorem witness_UnrecognizedOpcodeFails :
    (boot [-1]).status = .running ∧ ((boot [-1]).memRead 0).toInt < 0 ∧
    ∀ op : Opcode, op.number ≠ ((boot [98]).memRead 0).toNat % 100 := ⟨by decide, by decide, no_opcode_numbered_98⟩
theorem witness_StepOnlyWhileRunning : sample.status = .running ∧ sample.halt.status ≠ .running := by decide
theorem witness_RunOutcomeIsUnique :
    ((boot [99]).run 1).status ≠ .running ∧ ((boot [99]).run 3).status ≠ .running := by decide
theorem witness_InstructionPointerAdvance :
    (boot [1105, 1, 4]).status = .running ∧ (boot [1105, 1, 4]).fetch = .ok (.jumpIfTrue (imm 1) (imm 4)) ∧
    (after (step (boot [1105, 1, 4]))).map State.status = some .running := by decide
theorem witness_WhoWritesEachElement :
    (after (step (boot [109, 1]))).map State.rb = some 1 ∧ (after (step (boot [104, 7]))).map State.output = some [7] ∧
    (after (step (boot [99]))).map State.status = some .halted ∧ (after (step (boot [104, 7]))).map State.ip = some 2 ∧
    (after (step (boot [1101, 1, 1, 9]))).map State.mem = some ((boot [1101, 1, 1, 9]).mem.write 9 2) := by decide
-- each storing instruction; the stores go to the next instruction's word (4, 2) or to a parameter of it (5), and the memory then
-- decodes there
theorem witness_NextFetchSeesStore :
    (boot [1101, 104, 0, 4, 99]).status = .running ∧
    (boot [1101, 104, 0, 4, 99]).fetch = .ok (.add (imm 104) (imm 0) (pos 4)) ∧
    (Instr.add (imm 104) (imm 0) (pos 4)).destination = some (pos 4) ∧
    (boot [1101, 104, 0, 4, 99]).ip.toNat + (Instr.add (imm 104) (imm 0) (pos 4)).length ≤ addrMax ∧
    (boot [1101, 104, 0, 4, 99]).writeTarget (pos 4) = .ok 4 ∧
    (boot [1101, 104, 0, 4, 99]).storedWord (.add (imm 104) (imm 0) (pos 4)) = some 104 := by decide
theorem witness_NextFetchSeesStore_other_forms :
    (boot [1102, 3, 5, 5, 104]).fetch = .ok (.multiply (imm 3) (imm 5) (pos 5)) ∧
    (boot [1102, 3, 5, 5, 104]).storedWord (.multiply (imm 3) (imm 5) (pos 5)) = some 15 ∧
    (boot [1107, 3, 5, 5, 104]).storedWord (.lessThan (imm 3) (imm 5) (pos 5)) = some 1 ∧
    (boot [1108, 3, 5, 5, 104]).storedWord (.equals (imm 3) (imm 5) (pos 5)) = some 0 ∧
    ({ boot [3, 2, 0] with input := some 99 } : State).fetch = .ok (.input (pos 2)) ∧
    ({ boot [3, 2, 0] with input := some 99 } : State).writeTarget (pos 2) = .ok 2 ∧
    ({ boot [3, 2, 0] with input := some 99 } : State).storedWord (.input (pos 2)) = some 99 := by decide
theorem test_store_into_next_parameter :
    (after (step (boot [1102, 3, 5, 5, 104]))).map State.fetch = some (.ok (.output (imm 15))) := by decide
-- two memories that differ beyond the cells 0, 1 and 5 that Output [5] reads
theorem witness_StepDependsOnlyOnReadCells :
    (boot [4, 5, 0, 0, 0, 8, 1]).status = .running ∧ (boot [4, 5, 0, 0, 0, 8, 1]).fetch = .ok (.output (pos 5)) ∧
    (∀ a ∈ (boot [4, 5, 0, 0, 0, 8, 1]).readCells (.output (pos 5)),
      (boot [4, 5, 3, 3, 3, 8]).mem.read a = (boot [4, 5, 0, 0, 0, 8, 1]).memRead a) ∧
    (after (step (boot [4, 5, 0, 0, 0, 8, 1]))).map State.output = some [8] := by decide
-- the storing clause: Add #1 #2 [9] in a memory that differs beyond its own four words
theorem witness_StepDependsOnlyOnReadCells_storing :
    (boot [1101, 1, 2, 9, 5]).fetch = .ok (.add (imm 1) (imm 2) (pos 9)) ∧
    (∀ a ∈ (boot [1101, 1, 2, 9, 5]).readCells (.add (imm 1) (imm 2) (pos 9)),
      (boot [1101, 1, 2, 9]).mem.read a = (boot [1101, 1, 2, 9, 5]).memRead a) ∧
    (boot [1101, 1, 2, 9, 5]).writeTarget (pos 9) = .ok 9 ∧
    (after (step (boot [1101, 1, 2, 9, 5]))).map State.mem = some ((boot [1101, 1, 2, 9, 5]).mem.write 9 3) := by decide
theorem witness_StepKeepsInvariant :
    (boot [1101, 1, 1, 9]).inv ∧ (after (step (boot [1101, 1, 1, 9]))).map State.mem =
      some ⟨[(0, 1101), (1, 1), (2, 1), (3, 9), (9, 2)], 10⟩ := by decide
theorem witness_RestartDiscardsAll : sample.config = (boot [99]).halt.config := by decide
theorem witness_LaunchState :
    Config.standard.valid ∧ small.config.valid ∧ ([99] : List Word).length ≤ small.config.memWords ∧
    (∀ p ∈ [((15, 7) : Nat × Word)], p.1 < small.config.memWords) ∧
    small.config.memWords < (List.replicate 17 (0 : Word)).length ∧
    (∃ p ∈ [((16, 7) : Nat × Word)], small.config.memWords ≤ p.1) := by decide
theorem witness_RunsFromLaunchKeepInvariant :
    small.config.valid ∧ (launch small.config [99] [(15, 7)] (some 3)).map State.ip = .ok 0 := by decide
theorem witness_EmptyMemoryFailsToDecode : State.reset.status = .running ∧ State.reset.memRead State.reset.ip.toNat = 0 := by
  decide
theorem witness_ProgramTextRoundTrip : ([104, -7, 99] : List Word) ≠ [] := by decide
theorem witness_PlacedInstructionRuns :
    (sampleAt 9223372036854775804).config.unusedDigitsFault = false ∧
    (sampleAt 9223372036854775804).ip.toNat + 4 ≤ (sampleAt 9223372036854775804).config.memWords ∧
    decodeTableWord 64 99 = some .halt := by decide

end Sys2Proof.Tests
end

section
/-! PROOFS. The obligations about memory (20_memory.md). -/

namespace Sys2Proof.Machine

/-- A read at or beyond `LEN` gives 0 (R30). -/
theorem State.memRead_eq_zero_of_len_le {s : State} {a : Nat} (h : s.mem.len ≤ a) : s.memRead a = 0 :=
  if_neg (Nat.not_lt.mpr h)

/-- Settles O9. The zero fill needs no case of its own: a cell from the old `LEN` below `a` is another cell than `a`, and it read
0 before because it lay at or beyond `LEN`. -/
theorem memWriteEffect : Obligations.MemWriteEffect := by
  refine ⟨fun s a v _ _ => ⟨?written, ?filled, ?others, ?grows, ?keeps⟩, fun s o t h => (State.writeTarget_ok h).2⟩
  case written => rw [State.memRead_memWrite, if_pos rfl]
  case filled =>
    intro b hlen hlt
    rw [State.memRead_memWrite, if_neg (Nat.ne_of_lt hlt), State.memRead_eq_zero_of_len_le hlen]
  case others =>
    intro b hne
    rw [State.memRead_memWrite, if_neg hne]
  case grows =>
    intro hlen
    rw [State.memWrite_mem, Memory.write_len, if_pos hlen]
  case keeps =>
    intro hlt
    rw [State.memWrite_mem, Memory.write_len, if_neg (Nat.not_le.mpr hlt)]

end Sys2Proof.Machine
end

section
/-! PROOFS. The obligations about encoding (30_encoding.md): an Immediate destination, and an illegal mode digit. -/

namespace Sys2Proof

/-! ### The decimal digits of a canonical word (R51) -/

theorem modeDigits_eq_weight_mul (weight : Nat) (os : List Operand) :
    modeDigits weight os = weight * modeDigits 1 os := by
  induction os generalizing weight with
  | nil => rfl
  | cons o os ih =>
    simp only [modeDigits]
    rw [ih (weight * 10), ih (1 * 10)]
    ring

theorem modeDigits_one_cons (o : Operand) (os : List Operand) :
    modeDigits 1 (o :: os) = o.mode.number + 10 * modeDigits 1 os := by
  rw [modeDigits, modeDigits_eq_weight_mul, Nat.one_mul, Nat.one_mul]

theorem modeDigits_one_lt (os : List Operand) : modeDigits 1 os < 10 ^ os.length := by
  induction os with
  | nil => decide
  | cons o os ih =>
    have hm := Laws.EncodeShape.mode_number_le o.mode
    rw [modeDigits_one_cons, List.length_cons, Nat.pow_succ]
    omega

theorem digit_modeDigits_one {os : List Operand} {k : Nat} {o : Operand} (h : os[k]? = some o) :
    digit (modeDigits 1 os) k = o.mode.number := by
  induction os generalizing k with
  | nil => cases h
  | cons q os ih =>
    have hq := Laws.EncodeShape.mode_number_le q.mode
    rw [modeDigits_one_cons, digit]
    cases k with
    | zero =>
      cases h
      omega
    | succ k =>
      have htail : (q.mode.number + 10 * modeDigits 1 os) / 10 = modeDigits 1 os := by omega
      rw [Nat.pow_succ', ← Nat.div_div_eq_div_mul, htail]
      exact ih h

theorem Instr.operands_length (i : Instr) : i.operands.length = i.opcode.arity := by cases i <;> rfl

theorem Opcode.arity_le (op : Opcode) : op.arity ≤ 3 := by cases op <;> decide

theorem Instr.encodeShape (i : Instr) : Laws.EncodeShape.Statement i :=
  have hpow : 10 ^ i.operands.length ≤ 10 ^ 3 :=
    Nat.pow_le_pow_right (by decide) (i.operands_length.trans_le i.opcode.arity_le)
  Laws.EncodeShape.of_digits i.operands_length (modeDigits_eq_weight_mul 100 i.operands)
    ((modeDigits_one_lt i.operands).trans_le hpow)

theorem Instr.headWord_lt (i : Instr) : i.headWord < 100000 := i.encodeShape.2.1

theorem Instr.headWord_mod (i : Instr) : i.headWord % 100 = i.opcode.number := i.encodeShape.2.2

/-- Beyond the opcode number a canonical word is its mode digits. -/
theorem Instr.headWord_div_pow (i : Instr) (k : Nat) : i.headWord / 10 ^ (k + 2) = modeDigits 1 i.operands / 10 ^ k := by
  have hn := Laws.EncodeShape.number_lt i.opcode
  have hdiv : i.headWord / 10 ^ 2 = modeDigits 1 i.operands := by
    rw [Instr.headWord, modeDigits_eq_weight_mul]
    omega
  rw [Nat.add_comm, Nat.pow_add, ← Nat.div_div_eq_div_mul, hdiv]

theorem Instr.digit_headWord {i : Instr} {k : Nat} {o : Operand} (h : i.operands[k]? = some o) :
    digit i.headWord (k + 2) = o.mode.number := by
  rw [digit, i.headWord_div_pow]
  exact digit_modeDigits_one h

theorem Instr.toNat_headWord (i : Instr) : (BitVec.ofNat 64 i.headWord).toNat = i.headWord := by
  have hlt := i.headWord_lt
  rw [BitVec.toNat_ofNat]
  omega

theorem Instr.toInt_headWord_nonneg (i : Instr) : 0 ≤ (BitVec.ofNat 64 i.headWord).toInt := by
  have hlt := i.headWord_lt
  rw [BitVec.toInt_eq_toNat_of_lt (by rw [i.toNat_headWord]; omega)]
  exact Int.natCast_nonneg _

/-! ### The decoder on canonical words -/

/-- The converse of `decode_ok`: a word that says these fields of an instruction decodes to it (R51 to R57, R72). -/
theorem decode_of_fields {strict : Bool} {w : Word} {p : Nat → Word} {i : Instr} (hw : 0 ≤ w.toInt)
    (hop : Opcode.ofNumber (w.toNat % 100) = some i.opcode)
    (ho : ∀ k o, i.operands[k]? = some o → decodeOperand w.toNat p (k + 1) = .ok o)
    (hu : checkUnused strict w.toNat i.opcode.arity = .ok ()) : decode strict w p = .ok i := by
  unfold decode
  rw [if_neg (Int.not_lt.2 hw), hop]
  cases i with
  | add a b dst | multiply a b dst | lessThan a b dst | equals a b dst =>
    exact decode3_ok.2 ⟨a, b, dst, ho 0 a rfl, ho 1 b rfl, ho 2 dst rfl, hu, rfl⟩
  | jumpIfTrue a b | jumpIfFalse a b => exact decode2_ok.2 ⟨a, b, ho 0 a rfl, ho 1 b rfl, hu, rfl⟩
  | input a | output a | adjustBase a => exact decode1_ok.2 ⟨a, ho 0 a rfl, hu, rfl⟩
  | halt => exact decode0_ok.2 ⟨hu, rfl⟩

/-- The canonical word decodes to its instruction, given parameters that are the operands' own. -/
theorem decode_headWord {strict : Bool} {i : Instr} {p : Nat → Word}
    (hp : ∀ k o, i.operands[k]? = some o → p (k + 1) = o.raw) :
    decode strict (BitVec.ofNat 64 i.headWord) p = .ok i := by
  refine decode_of_fields i.toInt_headWord_nonneg ?opcode ?operands ?unused <;> rw [i.toNat_headWord]
  case opcode => rw [i.headWord_mod, Opcode.ofNumber_number]
  case operands => exact fun k o ho => decodeOperand_ok.2 ⟨(Instr.digit_headWord ho).symm, (hp k o ho).symm⟩
  case unused =>
    refine checkUnused_ok.2 fun _ => ?_
    rw [i.headWord_div_pow, ← i.operands_length]
    exact Nat.div_eq_of_lt (modeDigits_one_lt i.operands)

theorem decodeWords_encode_append (strict : Bool) (i : Instr) (rest : List Word) :
    decodeWords strict (encode i ++ rest) = .ok (i, rest) := by
  have hlen : (i.operands.map Operand.raw).length = i.opcode.arity := by rw [List.length_map, i.operands_length]
  have hdec : decode strict (BitVec.ofNat 64 i.headWord)
      (fun k => (i.operands.map Operand.raw ++ rest).getD (k - 1) 0) = .ok i := by
    refine decode_headWord fun k o ho => ?_
    have hk : k < (i.operands.map Operand.raw).length := by
      rw [List.length_map]
      exact (List.getElem?_eq_some_iff.1 ho).1
    rw [Nat.add_sub_cancel, List.getD_append _ _ _ _ hk, List.getD_eq_getElem?_getD, List.getElem?_map, ho]
    rfl
  rw [encode, List.cons_append, decodeWords, hdec]
  simp only [List.length_append, hlen, List.drop_left' hlen]
  rw [if_neg (by omega)]

/-! ### What an accepted word says of the destination, and of the mode digits -/

theorem Mode.number_eq_one_iff (m : Mode) : m.number = 1 ↔ m = .immediate := by cases m <;> decide

theorem Operand.writable_eq_false_iff (o : Operand) : o.writable = false ↔ o.mode = .immediate := by
  obtain ⟨m, r⟩ := o
  cases m <;> simp [Operand.writable]

/-- An instruction that writes has its destination at the position `writes(op)` (R54); it is not well formed when that
operand is not writable. -/
theorem Instr.wellFormed_eq_false_iff (i : Instr) :
    i.wellFormed = false ↔ ∃ k d, i.opcode.writes = some (k + 1) ∧ i.operands[k]? = some d ∧ d.writable = false := by
  cases i with
  | add a b dst | multiply a b dst | lessThan a b dst | equals a b dst =>
    simp [Instr.wellFormed, Instr.opcode, Opcode.writes, Instr.operands]
  | input dst => simp [Instr.wellFormed, Instr.opcode, Opcode.writes, Instr.operands]
  | output | jumpIfTrue | jumpIfFalse | adjustBase | halt => simp [Instr.wellFormed, Instr.opcode, Opcode.writes]

/-- The opcodes that write are 1, 2, 7 and 8, in operand 3, and 3, in operand 1 (R54); `P` counts operands from 0. -/
theorem Opcode.exists_writes_iff (op : Opcode) (P : Nat → Prop) :
    (∃ k, op.writes = some (k + 1) ∧ P k) ↔
      ((op.number = 1 ∨ op.number = 2 ∨ op.number = 7 ∨ op.number = 8) ∧ P 2) ∨ (op.number = 3 ∧ P 0) := by
  cases op <;> simp [Opcode.writes, Opcode.number]

/-- Every operand position of the opcode has an operand, whose mode is the digit there (R55). -/
theorem decode_operand_exists {strict : Bool} {w : Word} {p : Nat → Word} {i : Instr} {k : Nat}
    (h : decode strict w p = .ok i) (hk : k < i.opcode.arity) :
    ∃ o, i.operands[k]? = some o ∧ o.mode.number = digit w.toNat (k + 2) := by
  obtain ⟨-, -, hlen, ho, -⟩ := decode_ok h
  have hget := List.getElem?_eq_getElem (hlen.symm ▸ hk : k < i.operands.length)
  exact ⟨_, hget, (decodeOperand_ok.1 (ho k _ hget)).1⟩

/-- An accepted word has only the mode digits 0, 1 and 2 in the operands of its opcode (R57). -/
theorem decode_modeDigit_le {strict : Bool} {w : Word} {p : Nat → Word} {i : Instr} {op : Opcode} {k : Nat}
    (h : decode strict w p = .ok i) (hop : op.number = w.toNat % 100) (hk1 : 1 ≤ k) (hk : k ≤ op.arity) :
    digit w.toNat (k + 1) ≤ 2 := by
  obtain ⟨-, hnum, -⟩ := decode_ok h
  have hopi : op = i.opcode := by
    rw [← hop, Opcode.ofNumber_number] at hnum
    exact Option.some.inj hnum
  obtain ⟨j, rfl⟩ : ∃ j, k = j + 1 := ⟨k - 1, by omega⟩
  obtain ⟨o, -, hdigit⟩ := decode_operand_exists h (hopi ▸ hk : j < i.opcode.arity)
  exact hdigit ▸ Laws.EncodeShape.mode_number_le o.mode

theorem Opcode.lt_arity_of_writes {op : Opcode} {k : Nat} (h : op.writes = some (k + 1)) : k < op.arity := by
  cases op <;> cases h <;> decide

/-- An accepted word is not well formed exactly when the mode digit of its destination is 1 (R58). -/
theorem decode_wellFormed_eq_false_iff {strict : Bool} {w : Word} {p : Nat → Word} {i : Instr}
    (h : decode strict w p = .ok i) :
    i.wellFormed = false ↔ ∃ k, i.opcode.writes = some (k + 1) ∧ digit w.toNat (k + 2) = 1 := by
  rw [i.wellFormed_eq_false_iff]
  refine exists_congr fun k => ?_
  constructor
  · rintro ⟨d, hk, hd, himm⟩
    obtain ⟨o, ho, hdigit⟩ := decode_operand_exists h (Opcode.lt_arity_of_writes hk)
    obtain rfl : d = o := Option.some.inj (hd.symm.trans ho)
    exact ⟨hk, hdigit ▸ (Mode.number_eq_one_iff _).2 ((Operand.writable_eq_false_iff d).1 himm)⟩
  · rintro ⟨hk, hone⟩
    obtain ⟨d, hd, hdigit⟩ := decode_operand_exists h (Opcode.lt_arity_of_writes hk)
    exact ⟨d, hk, hd, (Operand.writable_eq_false_iff d).2 ((Mode.number_eq_one_iff _).1 (hdigit.trans hone))⟩

end Sys2Proof

namespace Sys2Proof.Machine

/-! ### A destination that fails at its resolution (R76, R77) -/

theorem State.fallThrough_of_le {s : State} {n : Nat} (h : s.ip.toNat + (1 + n) ≤ addrMax) :
    ∃ next, s.fallThrough n = .ok next :=
  ⟨_, if_pos (by omega)⟩

theorem State.writeTarget_of_immediate (s : State) {d : Operand} (h : d.mode = .immediate) :
    s.writeTarget d = .error ⟨.invalidWriteTarget, d.raw⟩ := by
  simp only [State.writeTarget, State.effectiveAddress, h]

theorem State.binary_of_writeTarget_error {s : State} {a b dst : Operand} {next v1 v2 : Word} {f : Failure}
    (hn : s.fallThrough 3 = .ok next) (ha : s.readOperand a = .ok v1) (hb : s.readOperand b = .ok v2)
    (hd : s.writeTarget dst = .error f) (result : Word → Word → Except Failure Word) :
    s.binary a b dst result = .next (s.raise f) := by
  rw [State.binary, hn, ha, hb, hd]
  rfl

theorem execInput_of_writeTarget_error {s : State} {dst : Operand} {next : Word} {f : Failure}
    (hn : s.fallThrough 1 = .ok next) (hd : s.writeTarget dst = .error f) :
    execInput dst s = .next (s.raise f) := by
  rw [execInput, hn, hd]
  rfl

/-- An instruction below the top of the address space whose sources are resolved reports the failure of its destination, before
its result is looked at (R77). -/
theorem exec_of_writeTarget_error {s : State} {i : Instr} {d : Operand} {f : Failure} (hd : i.destination = some d)
    (hip : s.ip.toNat + i.length ≤ addrMax) (hsrc : ∀ o ∈ i.sources, ∃ v, s.readOperand o = .ok v)
    (hf : s.writeTarget d = .error f) : exec i s = .next (s.raise f) := by
  obtain ⟨next, hn⟩ := State.fallThrough_of_le hip
  cases i with
  | add a b dst | multiply a b dst | lessThan a b dst | equals a b dst =>
    cases hd
    obtain ⟨v1, ha⟩ := hsrc a (.head _)
    obtain ⟨v2, hb⟩ := hsrc b (.tail _ (.head _))
    exact State.binary_of_writeTarget_error hn ha hb hf _
  | input dst =>
    cases hd
    exact execInput_of_writeTarget_error hn hf
  | output | jumpIfTrue | jumpIfFalse | adjustBase | halt => cases hd

/-- Settles O8. That the words decode needs no Immediate destination; which accepted words they are is the destination's mode
digit; the failure is that of `WriteTarget`. -/
theorem immediateDestinationFailsAtResolution : Obligations.ImmediateDestinationFailsAtResolution := by
  refine ⟨fun strict i rest _ => decodeWords_encode_append strict i rest, ?words, ?fails⟩
  case words =>
    intro strict w p i h
    obtain ⟨-, hop, -⟩ := decode_ok h
    rw [decode_wellFormed_eq_false_iff h, i.opcode.exists_writes_iff fun k => digit w.toNat (k + 2) = 1,
      Opcode.number_of_ofNumber hop]
  case fails =>
    intro s i d hd himm hip hsrc
    exact ⟨_, _, exec_of_writeTarget_error hd hip hsrc (s.writeTarget_of_immediate himm), rfl, rfl⟩

/-! ### A refused word (R57, R72) -/

theorem State.fetch_of_decode_error {s : State} {r : Reject}
    (h : decode s.config.unusedDigitsFault (s.memRead s.ip.toNat) (fun k => s.memRead (s.ip.toNat + k)) = .error r) :
    s.fetch = .error ⟨.decodeError, s.memRead s.ip.toNat⟩ := by
  rw [State.fetch, State.fetchWord, h]

theorem step_of_fetch_error {s : State} {f : Failure} (hs : s.status = .running) (h : s.fetch = .error f) :
    step s = .next (s.raise f) := by
  rw [step, hs, h]

/-- Settles O39: were the word accepted, all its mode digits would be at most 2. -/
theorem illegalModeDigitFails : Obligations.IllegalModeDigitFails := by
  intro s op k hs _ hop hk1 hk hdigit
  cases hdec : decode s.config.unusedDigitsFault (s.memRead s.ip.toNat) (fun k => s.memRead (s.ip.toNat + k)) with
  | ok i => exact absurd (decode_modeDigit_le hdec hop hk1 hk) (Nat.not_le.2 hdigit)
  | error r => exact ⟨_, step_of_fetch_error hs (State.fetch_of_decode_error hdec), rfl⟩

end Sys2Proof.Machine
end

section
/-! PROOFS. The obligations about the execution step (40_execution_step.md): when a step exists, and where `IP` goes. -/

namespace Sys2Proof.Machine

/-! ### When a step exists, and runs of steps (R70) -/

theorem step_of_fetch_ok {s : State} {i : Instr} (hs : s.status = .running) (h : s.fetch = .ok i) :
    step s = exec i s := by
  rw [step, hs, h]

theorem step_next_of_running {s : State} (hs : s.status = .running) : ∃ t, step s = .next t := by
  cases hf : s.fetch with
  | ok i =>
    obtain ⟨t, ht, -⟩ := exec_effect i s
    exact ⟨t, (step_of_fetch_ok hs hf).trans ht⟩
  | error f => exact ⟨s.raise f, step_of_fetch_error hs hf⟩

theorem running_iff_step_next (s : State) : s.status = .running ↔ ∃ t, step s = .next t :=
  ⟨step_next_of_running, fun ⟨_, h⟩ => (step_cases h).1⟩

theorem State.run_succ_of_step {s t : State} (h : step s = .next t) (n : Nat) : s.run (n + 1) = t.run n := by
  rw [State.run, h]

theorem State.run_of_not_running {s : State} (hs : s.status ≠ .running) (n : Nat) : s.run n = s := by
  cases n with
  | zero => rfl
  | succ n =>
    rw [State.run]
    split
    · next t h => exact absurd (step_cases h).1 hs
    · rfl
    · rfl

theorem State.run_add (s : State) (m n : Nat) : s.run (m + n) = (s.run m).run n := by
  induction m generalizing s with
  | zero => rw [Nat.zero_add, State.run]
  | succ m ih =>
    by_cases hs : s.status = .running
    · obtain ⟨t, h⟩ := step_next_of_running hs
      rw [Nat.succ_add, run_succ_of_step h, run_succ_of_step h, ih]
    · rw [run_of_not_running hs, run_of_not_running hs, run_of_not_running hs]

/-- Settles O41. A step exists while running because `exec` always answers a next state; runs compose by induction on the
steps of the first, which a terminal state does not take. -/
theorem stepOnlyWhileRunning : Obligations.StepOnlyWhileRunning :=
  ⟨running_iff_step_next, fun _ n hs => State.run_of_not_running hs n, State.run_add⟩

/-! ### The advance of `IP` by an instruction that completes (R78) -/

/-- An outcome that raises is not one that completes. -/
theorem raise_ne_completed {o : Host.Outcome State Fault Refusal} {s t : State} {f : Failure}
    (e : o = .next (s.raise f)) (h : o = .next t) (hok : ∀ f, t.status ≠ .failed f) : False := by
  cases e.symm.trans h
  exact hok f rfl

theorem ip_of_setIp_fallThrough {o : Host.Outcome State Fault Refusal} {s t u : State} {n : Nat} {next : Word}
    (hn : s.fallThrough n = .ok next) (e : o = .next (u.setIp next)) (h : o = .next t) :
    t.ip.toNat = s.ip.toNat + 1 + n := by
  cases e.symm.trans h
  exact (State.fallThrough_ok hn).1

section
variable {s t : State} (hok : ∀ f, t.status ≠ .failed f)
include hok

theorem State.binary_ip {a b dst : Operand} {result : Word → Word → Except Failure Word}
    (h : s.binary a b dst result = .next t) : t.ip.toNat = s.ip.toNat + 4 := by
  obtain ⟨_, e⟩ | ⟨_, _, _, _, _, hn, -, -, -, -, e⟩ := s.binary_cases a b dst result
  · exact (raise_ne_completed e h hok).elim
  · exact ip_of_setIp_fallThrough hn e h

theorem execInput_ip {dst : Operand} (h : execInput dst s = .next t) : t.ip.toNat = s.ip.toNat + 2 := by
  obtain ⟨_, e⟩ | ⟨_, _, _, hn, -, -, e⟩ := execInput_cases dst s
  · exact (raise_ne_completed e h hok).elim
  · exact ip_of_setIp_fallThrough hn e h

theorem execOutput_ip {a : Operand} (h : execOutput a s = .next t) : t.ip.toNat = s.ip.toNat + 2 := by
  obtain ⟨_, e⟩ | ⟨_, _, hn, -, -, e⟩ := execOutput_cases a s
  · exact (raise_ne_completed e h hok).elim
  · exact ip_of_setIp_fallThrough hn e h

theorem execAdjustBase_ip {a : Operand} (h : execAdjustBase a s = .next t) : t.ip.toNat = s.ip.toNat + 2 := by
  obtain ⟨_, e⟩ | ⟨_, _, _, hn, -, -, e⟩ := execAdjustBase_cases a s
  · exact (raise_ne_completed e h hok).elim
  · exact ip_of_setIp_fallThrough hn e h

/-- A jump goes to the value of its target when it is taken, and past its three words when it is not (R110, R111). -/
theorem State.jump_ip {cond target : Operand} {taken : Word → Bool} (h : s.jump cond target taken = .next t) :
    ∃ c, s.readOperand cond = .ok c ∧ (taken c = true → s.readOperand target = .ok t.ip) ∧
      (taken c = false → t.ip.toNat = s.ip.toNat + 3) := by
  obtain ⟨_, e⟩ | ⟨_, c, v, hn, hc, hv, ⟨htaken, -, e⟩ | ⟨huntaken, e⟩⟩ := s.jump_cases cond target taken
  · exact (raise_ne_completed e h hok).elim
  · cases e.symm.trans h
    exact ⟨c, hc, fun _ => hv, fun huntaken => absurd (htaken.symm.trans huntaken) (by decide)⟩
  · exact ⟨c, hc, fun htaken => absurd (htaken.symm.trans huntaken) (by decide),
      fun _ => ip_of_setIp_fallThrough hn e h⟩

end

/-- Settles O43. The advance is the fall-through address, which the check of R73 keeps from wrapping; a taken jump's is the
value of its target. -/
theorem instructionPointerAdvance : Obligations.InstructionPointerAdvance := by
  intro s t i hs hi h hok
  rw [step_of_fetch_ok hs hi] at h
  cases i with
  | add | multiply | lessThan | equals => exact State.binary_ip hok h
  | input => exact execInput_ip hok h
  | output => exact execOutput_ip hok h
  | adjustBase => exact execAdjustBase_ip hok h
  | jumpIfTrue cond target =>
    obtain ⟨c, hc, htaken, huntaken⟩ := State.jump_ip hok h
    exact ⟨c, hc, fun hne => htaken (bne_iff_ne.2 hne), fun heq => huntaken (bne_eq_false_iff_eq.2 heq)⟩
  | jumpIfFalse cond target =>
    obtain ⟨c, hc, htaken, huntaken⟩ := State.jump_ip hok h
    exact ⟨c, hc, fun heq => htaken (beq_iff_eq.2 heq), fun hne => huntaken (beq_eq_false_iff_ne.2 hne)⟩
  | halt =>
    cases h
    exact ⟨rfl, rfl⟩

end Sys2Proof.Machine
end

section
/-! PROOFS. The obligations about encoding (30_encoding.md): the two round trips, what the decoder accepts and what an accepted
word says. -/

namespace Sys2Proof

/-- Settles O1, by the decoder's answer on a canonical word. -/
theorem encodeThenDecode : Obligations.EncodeThenDecode :=
  decodeWords_encode_append

/-! ### The accepted word with no unused digit is the canonical one (R61) -/

/-- Mode digits that are the decimal digits of a number, and all of them, make up that number. -/
theorem modeDigits_one_eq {os : List Operand} {n : Nat} (hdigit : ∀ k o, os[k]? = some o → o.mode.number = digit n k)
    (hlast : n / 10 ^ os.length = 0) : modeDigits 1 os = n := by
  induction os generalizing n with
  | nil => simpa [modeDigits] using hlast.symm
  | cons o os ih =>
    have hhead : o.mode.number = n % 10 := by simpa [digit] using hdigit 0 o rfl
    have htail : modeDigits 1 os = n / 10 := by
      refine ih (fun k q hq => ?_) ?_
      · rw [hdigit (k + 1) q hq, digit, digit, Nat.div_div_eq_div_mul, Nat.pow_succ']
      · rw [Nat.div_div_eq_div_mul, ← Nat.pow_succ']
        exact hlast
    rw [modeDigits_one_cons, hhead, htail, Nat.mod_add_div]

/-- With `UNUSED_DIGITS_FAULT`, an accepted word is the canonical word of its instruction. -/
theorem decode_true_headWord {w : Word} {p : Nat → Word} {i : Instr} (h : decode true w p = .ok i) :
    BitVec.ofNat 64 i.headWord = w := by
  obtain ⟨-, hop, hlen, ho, hu⟩ := decode_ok h
  have hmodes : modeDigits 1 i.operands = w.toNat / 10 ^ 2 := by
    refine modeDigits_one_eq (fun k o hk => ?_) ?_
    · rw [(decodeOperand_ok.1 (ho k o hk)).1, digit, digit, Nat.div_div_eq_div_mul, ← Nat.pow_add, Nat.add_comm 2]
    · rw [Nat.div_div_eq_div_mul, ← Nat.pow_add, Nat.add_comm 2, hlen]
      exact checkUnused_ok.1 hu rfl
  have hword : i.headWord = w.toNat := by
    rw [Instr.headWord, modeDigits_eq_weight_mul, hmodes, Opcode.number_of_ofNumber hop]
    exact Nat.mod_add_div w.toNat 100
  rw [hword, BitVec.ofNat_toNat, BitVec.setWidth_eq]

/-- The raw parameters of an accepted word are the words after it (R50, R55). -/
theorem decode_raw_eq_take {strict : Bool} {w : Word} {ps : List Word} {i : Instr}
    (h : decode strict w (fun k => ps.getD (k - 1) 0) = .ok i) (hps : i.opcode.arity ≤ ps.length) :
    i.operands.map Operand.raw = ps.take i.opcode.arity := by
  obtain ⟨-, -, hlen, ho, -⟩ := decode_ok h
  refine List.ext_getElem (by simp [hlen, hps]) fun k hk _ => ?_
  rw [List.length_map] at hk
  have hraw := (decodeOperand_ok.1 (ho k _ (List.getElem?_eq_getElem hk))).2
  rw [List.getElem_map, hraw, List.getElem_take, Nat.add_sub_cancel, List.getD_eq_getElem _ _ (by omega)]

/-- What an accepted list of words says: its head decodes with the words after it, which are enough for its operands. -/
theorem decodeWords_cons_ok {strict : Bool} {w : Word} {ps rest : List Word} {i : Instr}
    (h : decodeWords strict (w :: ps) = .ok (i, rest)) :
    decode strict w (fun k => ps.getD (k - 1) 0) = .ok i ∧ i.opcode.arity ≤ ps.length ∧
      rest = ps.drop i.opcode.arity := by
  rw [decodeWords] at h
  split at h
  · cases h
  · next j hj =>
    split at h
    · cases h
    · next hps =>
      cases h
      exact ⟨hj, Nat.not_lt.1 hps, rfl⟩

/-- Settles O2. The head of the list is the canonical word because its mode digits are all its digits beyond the opcode
number. -/
theorem strictDecodeThenEncode : Obligations.StrictDecodeThenEncode := by
  intro ws i rest h
  cases ws with
  | nil => cases h
  | cons w ps =>
    obtain ⟨hdec, hps, rfl⟩ := decodeWords_cons_ok h
    rw [encode, decode_true_headWord hdec, decode_raw_eq_take hdec hps, List.cons_append, List.take_append_drop]

/-! ### Which words are accepted, and what they say (R51 to R57, R72) -/

theorem Mode.exists_number_eq {d : Nat} (h : d ≤ 2) : ∃ m : Mode, m.number = d := by
  match d, h with
  | 0, _ => exact ⟨.position, rfl⟩
  | 1, _ => exact ⟨.immediate, rfl⟩
  | 2, _ => exact ⟨.relative, rfl⟩

/-- Every opcode has the instruction of any operands in the number of its arity (R53). -/
theorem Opcode.exists_instr : ∀ (op : Opcode) {os : List Operand}, os.length = op.arity →
    ∃ i : Instr, i.opcode = op ∧ i.operands = os
  | .add, [a, b, dst], _ => ⟨.add a b dst, rfl, rfl⟩
  | .multiply, [a, b, dst], _ => ⟨.multiply a b dst, rfl, rfl⟩
  | .input, [dst], _ => ⟨.input dst, rfl, rfl⟩
  | .output, [a], _ => ⟨.output a, rfl, rfl⟩
  | .jumpIfTrue, [cond, target], _ => ⟨.jumpIfTrue cond target, rfl, rfl⟩
  | .jumpIfFalse, [cond, target], _ => ⟨.jumpIfFalse cond target, rfl, rfl⟩
  | .lessThan, [a, b, dst], _ => ⟨.lessThan a b dst, rfl, rfl⟩
  | .equals, [a, b, dst], _ => ⟨.equals a b dst, rfl, rfl⟩
  | .adjustBase, [a], _ => ⟨.adjustBase a, rfl, rfl⟩
  | .halt, [], _ => ⟨.halt, rfl, rfl⟩

/-- Mode digits up to 2 give a list of decoded operands. -/
theorem exists_decodedOperands {w n : Nat} (p : Nat → Word) (h : ∀ k, 1 ≤ k → k ≤ n → digit w (k + 1) ≤ 2) :
    ∃ os : List Operand, os.length = n ∧ ∀ k o, os[k]? = some o → decodeOperand w p (k + 1) = .ok o := by
  have hmode : ∀ k : Fin n, ∃ m : Mode, m.number = digit w (k + 2) := fun k =>
    Mode.exists_number_eq (h (k + 1) (by omega) (by omega))
  choose mode hmode using hmode
  refine ⟨List.ofFn fun k => ⟨mode k, p (k + 1)⟩, List.length_ofFn, fun k o ho => ?_⟩
  obtain ⟨hk, rfl⟩ := List.getElem?_eq_some_iff.1 ho
  rw [List.getElem_ofFn]
  exact decodeOperand_ok.2 ⟨hmode _, rfl⟩

/-- Settles O3. One way is what an accepted word says; the other way builds the instruction from the opcode and the digits. -/
theorem decodeAcceptsExactly : Obligations.DecodeAcceptsExactly := by
  intro strict w p
  constructor
  · rintro ⟨i, h⟩
    obtain ⟨hw, hop, -, -, hu⟩ := decode_ok h
    have hnum := Opcode.number_of_ofNumber hop
    exact ⟨hw, i.opcode, hnum, fun k => decode_modeDigit_le h hnum, checkUnused_ok.1 hu⟩
  · rintro ⟨hw, op, hnum, hdigits, hu⟩
    obtain ⟨os, hlen, ho⟩ := exists_decodedOperands p hdigits
    obtain ⟨i, rfl, rfl⟩ := op.exists_instr hlen
    exact ⟨i, decode_of_fields hw (by rw [← hnum, Opcode.ofNumber_number]) ho (checkUnused_ok.2 hu)⟩

/-- Settles O4, by what an accepted word says of each operand. -/
theorem decodedFieldsAreDecimalDigits : Obligations.DecodedFieldsAreDecimalDigits := by
  intro strict w p i h
  obtain ⟨-, hop, hlen, ho, -⟩ := decode_ok h
  exact ⟨Opcode.number_of_ofNumber hop, hlen, fun k o hk => decodeOperand_ok.1 (ho k o hk)⟩

/-- Only the raw parameters of its operands matter to an accepted word (R72). -/
theorem decode_congr_params {strict : Bool} {w : Word} {p q : Nat → Word} {i : Instr} (h : decode strict w p = .ok i)
    (hq : ∀ k, k < i.opcode.arity → q (k + 1) = p (k + 1)) : decode strict w q = .ok i := by
  obtain ⟨hw, hop, hlen, ho, hu⟩ := decode_ok h
  refine decode_of_fields hw hop (fun k o hk => ?_) hu
  obtain ⟨hmode, hraw⟩ := decodeOperand_ok.1 (ho k o hk)
  have hk : k < i.opcode.arity := hlen ▸ (List.getElem?_eq_some_iff.1 hk).1
  exact decodeOperand_ok.2 ⟨hmode, hraw.trans (hq k hk).symm⟩

/-! ### The five digits the decoder reads (R61) -/

theorem digit_eq_of_mod_eq {w u n : Nat} (h : w % 10 ^ n = u % 10 ^ n) {k : Nat} (hk : k < n) : digit w k = digit u k := by
  obtain ⟨m, rfl⟩ : ∃ m, n = k + 1 + m := ⟨n - (k + 1), by omega⟩
  have hmod : w % 10 ^ (k + 1) = u % 10 ^ (k + 1) := by
    rw [Nat.pow_add] at h
    rw [← Nat.mod_mul_right_mod w _ (10 ^ m), h, Nat.mod_mul_right_mod]
  rw [digit, digit, ← Nat.mod_mul_right_div_self, ← Nat.mod_mul_right_div_self, ← Nat.pow_succ, hmod]

theorem decodeOperand_congr_mod {w u : Nat} (h : w % 100000 = u % 100000) (p : Nat → Word) {k : Nat} (hk : k ≤ 3) :
    decodeOperand w p k = decodeOperand u p k := by
  have hdigit : digit w (k + 1) = digit u (k + 1) := digit_eq_of_mod_eq (n := 5) h (by omega)
  rw [decodeOperand, decodeOperand, hdigit]

/-- Settles O5. The opcode number and the mode digits are among the last five digits, and no other digit is checked. -/
theorem decodeReadsFiveDigits : Obligations.DecodeReadsFiveDigits := by
  intro w u p hw hu h
  have hop : w.toNat % 100 = u.toNat % 100 := by omega
  have h1 := decodeOperand_congr_mod h p (k := 1) (by decide)
  have h2 := decodeOperand_congr_mod h p (k := 2) (by decide)
  have h3 := decodeOperand_congr_mod h p (k := 3) (by decide)
  rw [decode, decode, if_neg (Int.not_lt.2 hw), if_neg (Int.not_lt.2 hu), hop]
  cases Opcode.ofNumber (u.toNat % 100) with
  | none => rfl
  | some op =>
    cases op with
    | add | multiply | lessThan | equals => simp only [decode3, h1, h2, h3]; rfl
    | jumpIfTrue | jumpIfFalse => simp only [decode2, h1, h2]; rfl
    | input | output | adjustBase => simp only [decode1, h1]; rfl
    | halt => rfl

/-! ### Concrete words and the table of destinations -/

/-- Settles O6, by running the decoder on each word. -/
theorem specWordsDecode : Obligations.SpecWordsDecode := by
  refine ⟨?_, ?_, ?_, ?_, ?_, ?_, ?_, ?_, ?_, ?_, ?_, ?_, ?_, ?_⟩ <;> decide

/-- Settles O7. The table is the model's; the roles of the operands follow it by the position `writes(op)`. -/
theorem operandRoles : Obligations.OperandRoles := by
  refine ⟨rfl, rfl, rfl, rfl, rfl, rfl, rfl, rfl, rfl, rfl, fun i => ⟨fun k hk => ?destination, fun hk => ?none⟩⟩
  case destination =>
    cases i with
    | add a b dst | multiply a b dst | lessThan a b dst | equals a b dst =>
      cases hk
      exact ⟨dst, rfl, rfl, rfl, rfl⟩
    | input dst =>
      cases hk
      exact ⟨dst, rfl, rfl, rfl, rfl⟩
    | output | jumpIfTrue | jumpIfFalse | adjustBase | halt => cases hk
  case none => exact ⟨by rw [Instr.destination, hk], by rw [Instr.sources, hk]⟩

end Sys2Proof
end

section
/-! PROOFS. The obligations about sequences of writes (20_memory.md section 1), operands (40_execution_step.md section 3) and
the overflow rule (00_scope.md section 5). -/

namespace Sys2Proof.Machine

/-! ### Writes in order (R31, R34) -/

/-- The memory after writes in order. -/
def Memory.writeAll (m : Memory) (ws : List (Nat × Word)) : Memory :=
  ws.foldl (fun m p => m.write p.1 p.2) m

theorem Memory.writeAll_cons (m : Memory) (p : Nat × Word) (ws : List (Nat × Word)) :
    m.writeAll (p :: ws) = (m.write p.1 p.2).writeAll ws := rfl

theorem Memory.writeAll_concat (m : Memory) (ws : List (Nat × Word)) (p : Nat × Word) :
    m.writeAll (ws ++ [p]) = (m.writeAll ws).write p.1 p.2 := List.foldl_concat ..

theorem Memory.read_writeAll (m : Memory) (ws : List (Nat × Word)) (a : Nat) :
    (m.writeAll ws).read a = ((ws.reverse.find? (fun p => p.1 == a)).map Prod.snd).getD (m.read a) := by
  induction ws using List.reverseRecOn with
  | nil => rfl
  | append_singleton ws p ih =>
    rw [writeAll_concat, read_write, List.reverse_concat]
    by_cases hp : a = p.1
    · rw [if_pos hp, List.find?_cons_of_pos (by simp [hp])]
      rfl
    · rw [if_neg hp, List.find?_cons_of_neg (by simpa using Ne.symm hp), ih]

theorem Memory.writeAll_wf {m : Memory} (h : m.wf) (ws : List (Nat × Word)) : (m.writeAll ws).wf := by
  induction ws generalizing m with
  | nil => exact h
  | cons p ws ih => exact ih (write_wf h p.1 p.2)

/-- Settles O10, from the empty memory, which reads 0. -/
theorem readGivesLastWrite : Obligations.ReadGivesLastWrite :=
  fun ws a => ⟨Memory.read_writeAll ⟨[], 0⟩ ws a, Memory.writeAll_wf State.reset_mem_wf ws⟩

/-! ### Operands by their effective address (R74 to R76) -/

theorem checkAddress_of_mem {ea : Int} (h0 : 0 ≤ ea) (h1 : ea ≤ addrMax) : checkAddress ea = .ok ea.toNat :=
  if_pos ⟨h0, h1⟩

theorem checkAddress_of_not_mem {ea : Int} (h : ea < 0 ∨ addrMax < ea) :
    checkAddress ea = .error ⟨.invalidAddress, wrap64 ea⟩ :=
  if_neg (by omega)

section
variable {s : State} {o : Operand} {ea : Int}

theorem State.readOperand_of_address (h : s.effectiveAddress o = some ea) (h0 : 0 ≤ ea) (h1 : ea ≤ addrMax) :
    s.readOperand o = .ok (s.memRead ea.toNat) := by
  simp only [State.readOperand, h, checkAddress_of_mem h0 h1]
  rfl

theorem State.readOperand_of_not_address (h : s.effectiveAddress o = some ea) (hea : ea < 0 ∨ addrMax < ea) :
    s.readOperand o = .error ⟨.invalidAddress, wrap64 ea⟩ := by
  simp only [State.readOperand, h, checkAddress_of_not_mem hea]
  rfl

theorem State.writeTarget_of_address (h : s.effectiveAddress o = some ea) (h0 : 0 ≤ ea) (h1 : ea ≤ addrMax)
    (hmem : ea.toNat < s.config.memWords) : s.writeTarget o = .ok ea.toNat := by
  simp only [State.writeTarget, h, checkAddress_of_mem h0 h1]
  exact if_pos hmem

theorem State.writeTarget_of_beyond_memory (h : s.effectiveAddress o = some ea) (h0 : 0 ≤ ea) (h1 : ea ≤ addrMax)
    (hmem : s.config.memWords ≤ ea.toNat) : s.writeTarget o = .error ⟨.memoryBounds, wrap64 ea⟩ := by
  have hinfo : wrap64 ea = BitVec.ofNat 64 ea.toNat := by
    rw [wrap64, ← BitVec.ofInt_natCast, Int.toNat_of_nonneg h0]
  simp only [State.writeTarget, h, checkAddress_of_mem h0 h1, hinfo]
  exact if_neg (Nat.not_lt.2 hmem)

theorem State.writeTarget_of_not_address (h : s.effectiveAddress o = some ea) (hea : ea < 0 ∨ addrMax < ea) :
    s.writeTarget o = .error ⟨.invalidAddress, wrap64 ea⟩ := by
  simp only [State.writeTarget, h, checkAddress_of_not_mem hea]
  rfl

end

theorem wrap64_toInt (w : Word) : wrap64 w.toInt = w := BitVec.ofInt_toInt

theorem wrap64_toInt_add_toInt (x y : Word) : wrap64 (x.toInt + y.toInt) = x + y := by
  rw [wrap64, BitVec.ofInt_add, BitVec.ofInt_toInt, BitVec.ofInt_toInt]

theorem wrap64_toInt_mul_toInt (x y : Word) : wrap64 (x.toInt * y.toInt) = x * y := by
  rw [wrap64, BitVec.ofInt_mul, BitVec.ofInt_toInt, BitVec.ofInt_toInt]

theorem toInt_le_addrMax (w : Word) : w.toInt ≤ addrMax := by
  have := BitVec.toInt_lt (x := w)
  simp only [addrMax]
  omega

/-- Settles O11. A Position operand's effective address is its raw parameter, which no word puts above `ADDR_MAX`. -/
theorem sourceOperandValue : Obligations.SourceOperandValue := by
  intro s p
  refine ⟨rfl, fun h0 => ?position, fun hneg => ?negative, fun h0 h1 => State.readOperand_of_address rfl h0 h1,
    fun hea => ?outside⟩
  case position => rw [State.readOperand_of_address rfl h0 (toInt_le_addrMax p), (toNat_of_nonneg h0).1]
  case negative => rw [State.readOperand_of_not_address rfl (.inl hneg), wrap64_toInt]
  case outside => rw [State.readOperand_of_not_address rfl hea, wrap64_toInt_add_toInt]

/-- Settles O12, by the effective address, as for a source; a resolved one must also lie below `MEM_WORDS`. -/
theorem destinationOperandTarget : Obligations.DestinationOperandTarget := by
  intro s p
  refine ⟨rfl, fun h0 hmem => ?position, fun h0 hmem => ?positionBeyond, fun hneg => ?negative,
    fun h0 h1 hmem => State.writeTarget_of_address rfl h0 h1 (by omega), fun h0 h1 hmem => ?relativeBeyond,
    fun hea => ?outside⟩
  case position =>
    have htarget := (toNat_of_nonneg h0).1
    rw [State.writeTarget_of_address rfl h0 (toInt_le_addrMax p) (htarget ▸ hmem), htarget]
  case positionBeyond =>
    rw [State.writeTarget_of_beyond_memory rfl h0 (toInt_le_addrMax p) ((toNat_of_nonneg h0).1 ▸ hmem), wrap64_toInt]
  case negative => rw [State.writeTarget_of_not_address rfl (.inl hneg), wrap64_toInt]
  case relativeBeyond =>
    rw [State.writeTarget_of_beyond_memory rfl h0 h1 (by omega), wrap64_toInt_add_toInt]
  case outside => rw [State.writeTarget_of_not_address rfl hea, wrap64_toInt_add_toInt]

/-! ### The overflow rule (R8) -/

theorem arith_of_mem {v : Int} (hmin : intMin ≤ v) (hmax : v ≤ intMax) (policy : OverflowPolicy) :
    arith policy v = .ok (wrap64 v) :=
  if_pos ⟨hmin, hmax⟩

theorem arith_fault_of_not_mem {v : Int} (h : v < intMin ∨ intMax < v) :
    arith .fault v = .error ⟨.numericOverflow, wrap64 v⟩ :=
  if_neg (by omega)

theorem arith_wrap_of_not_mem {v : Int} (h : v < intMin ∨ intMax < v) : arith .wrap v = .ok (wrap64 v) :=
  if_neg (by omega)

theorem toInt_wrap64 (v : Int) :
    (wrap64 v).toInt = (v + 9223372036854775808) % 18446744073709551616 - 9223372036854775808 := by
  rw [wrap64, BitVec.toInt_ofInt, Int.bmod_def]
  split <;> omega

theorem toInt_wrap64_of_mem {v : Int} (hmin : intMin ≤ v) (hmax : v ≤ intMax) : (wrap64 v).toInt = v := by
  simp only [intMin, intMax] at hmin hmax
  rw [toInt_wrap64]
  omega

/-- Settles O13: in range the wrapped word has the exact value itself. -/
theorem arithmeticResult : Obligations.ArithmeticResult := fun v =>
  ⟨fun hmin hmax policy => ⟨_, toInt_wrap64_of_mem hmin hmax, arith_of_mem hmin hmax policy⟩,
    fun h => ⟨_, toInt_wrap64 v, arith_fault_of_not_mem h, arith_wrap_of_not_mem h⟩⟩

end Sys2Proof.Machine
end

section
/-! PROOFS. The obligations about each instruction once its operands are resolved: where it completes, and its own failure
(41_arithmetic.md to 46_halt.md). -/

namespace Sys2Proof.Machine

theorem State.fallThrough_eq {s : State} {n : Nat} (h : s.ip.toNat + (1 + n) ≤ addrMax) :
    s.fallThrough n = .ok (s.ip + BitVec.ofNat 64 (1 + n)) := by
  rw [State.fallThrough, if_pos (by omega), Nat.add_assoc, BitVec.ofNat_add, BitVec.ofNat_toNat, BitVec.setWidth_eq]

/-! ### The three-operand instructions (R90, R91, R120, R121) -/

section
variable {s : State} {a b dst : Operand} {x y : Word} {t : Nat} (hip : s.ip.toNat + 4 ≤ addrMax)
  (ha : s.readOperand a = .ok x) (hb : s.readOperand b = .ok y) (ht : s.writeTarget dst = .ok t)
  {result : Word → Word → Except Failure Word}
include hip ha hb ht

theorem State.binary_of_result_ok {r : Word} (hr : result x y = .ok r) :
    s.binary a b dst result = .next ((s.memWrite t r).setIp (s.ip + 4)) := by
  rw [State.binary, State.fallThrough_eq hip, ha, hb, ht]
  change s.settle (result x y >>= _) = _
  rw [hr]
  rfl

theorem State.binary_of_result_error {f : Failure} (hr : result x y = .error f) :
    s.binary a b dst result = .next (s.raise f) := by
  rw [State.binary, State.fallThrough_eq hip, ha, hb, ht]
  change s.settle (result x y >>= _) = _
  rw [hr]
  rfl

/-- An exact result out of range, under both policies (R8). -/
theorem State.binary_of_overflow {v : Int} {w : Word} (hr : result x y = arith s.config.overflowPolicy v)
    (hw : wrap64 v = w) (hv : v < intMin ∨ intMax < v) :
    (s.config.overflowPolicy = .fault → s.binary a b dst result = .next (s.raise ⟨.numericOverflow, w⟩)) ∧
      (s.config.overflowPolicy = .wrap →
        s.binary a b dst result = .next ((s.memWrite t w).setIp (s.ip + 4))) := by
  subst hw
  constructor <;> intro hpolicy <;> rw [hpolicy] at hr
  · exact binary_of_result_error hip ha hb ht (hr.trans (arith_fault_of_not_mem hv))
  · exact binary_of_result_ok hip ha hb ht (hr.trans (arith_wrap_of_not_mem hv))

end

/-- Settles O14: the sum in range is the result of `arith`. -/
theorem addStoresSum : Obligations.AddStoresSum :=
  fun _ _ _ _ _ _ _ hip ha hb ht hmin hmax =>
    ⟨_, toInt_wrap64_of_mem hmin hmax, State.binary_of_result_ok hip ha hb ht (arith_of_mem hmin hmax _)⟩

/-- Settles O15: the product in range is the result of `arith`. -/
theorem multiplyStoresProduct : Obligations.MultiplyStoresProduct :=
  fun _ _ _ _ _ _ _ hip ha hb ht hmin hmax =>
    ⟨_, toInt_wrap64_of_mem hmin hmax, State.binary_of_result_ok hip ha hb ht (arith_of_mem hmin hmax _)⟩

/-- Settles O20: a comparison has no failure of its own. -/
theorem lessThanStoresTruth : Obligations.LessThanStoresTruth :=
  fun _ _ _ _ _ _ _ hip ha hb ht => State.binary_of_result_ok hip ha hb ht rfl

theorem truthWord_toInt_eq (x y : Word) : truthWord (x.toInt = y.toInt) = truthWord (x = y) := by
  simp only [truthWord, BitVec.toInt_inj]

/-- Settles O21: words are equal when their values are. -/
theorem equalsStoresTruth : Obligations.EqualsStoresTruth :=
  fun _ _ _ _ x y _ hip ha hb ht =>
    State.binary_of_result_ok hip ha hb ht (congrArg Except.ok (truthWord_toInt_eq x y))

/-- Settles O26: each of the three completes, and the signed order of the two values says which one stores 1. -/
theorem comparisonTrichotomy : Obligations.ComparisonTrichotomy := by
  intro s a b dst x y t hip ha hb ht
  refine ⟨_, _, _, lessThanStoresTruth s a b dst x y t hip ha hb ht, equalsStoresTruth s a b dst x y t hip ha hb ht,
    lessThanStoresTruth s b a dst y x t hip hb ha ht, ?_⟩
  simp only [State.setIp_memRead, State.memRead_memWrite, if_true, ← BitVec.toInt_inj (x := x)]
  obtain h | h | h := lt_trichotomy x.toInt y.toInt
  · exact .inl ⟨if_pos h, if_neg h.ne, if_neg h.not_gt⟩
  · exact .inr (.inl ⟨if_neg h.not_lt, if_pos h, if_neg h.not_gt⟩)
  · exact .inr (.inr ⟨if_neg h.not_gt, if_neg h.ne', if_pos h⟩)

/-- Exchanged sources that are readable leave only the result to compare; every failure before and after them is the same. -/
theorem State.binary_comm {s : State} {a b : Operand} {x y : Word} (ha : s.readOperand a = .ok x)
    (hb : s.readOperand b = .ok y) (dst : Operand) {result : Word → Word → Except Failure Word}
    (hr : result x y = result y x) : s.binary a b dst result = s.binary b a dst result := by
  rw [State.binary, State.binary, ha, hb]
  change s.settle (s.fallThrough 3 >>= fun next => s.writeTarget dst >>= fun t => result x y >>= _) = _
  rw [hr]
  rfl

/-- Settles O25: the exact sum and the exact product are commutative. -/
theorem addMultiplyCommute : Obligations.AddMultiplyCommute := by
  intro s a b dst x y ha hb
  exact ⟨State.binary_comm ha hb dst (by rw [Int.add_comm]), State.binary_comm ha hb dst (by rw [Int.mul_comm])⟩

/-! ### Input and Output (R101, R102) -/

section
variable {s : State} (hip : s.ip.toNat + 2 ≤ addrMax)
include hip

theorem execInput_of_some {dst : Operand} {t : Nat} {v : Word} (ht : s.writeTarget dst = .ok t)
    (hv : s.input = some v) : execInput dst s = .next ((s.memWrite t v).setIp (s.ip + 2)) := by
  rw [execInput, State.fallThrough_eq hip, ht, hv]
  rfl

theorem execInput_of_none {dst : Operand} {t : Nat} (ht : s.writeTarget dst = .ok t) (hv : s.input = none) :
    execInput dst s = .next (s.raise ⟨.inputExhausted, 0⟩) := by
  rw [execInput, State.fallThrough_eq hip, ht, hv]
  rfl

theorem execOutput_of_not_full {a : Operand} {v : Word} (ha : s.readOperand a = .ok v)
    (hfull : s.config.outCapacity ≠ some s.output.length) :
    execOutput a s = .next ((s.append v).setIp (s.ip + 2)) := by
  rw [execOutput, State.fallThrough_eq hip, ha]
  exact congrArg s.settle (if_neg hfull)

theorem execOutput_of_full {a : Operand} {v : Word} (ha : s.readOperand a = .ok v)
    (hfull : s.config.outCapacity = some s.output.length) : execOutput a s = .next (s.raise ⟨.outputFull, v⟩) := by
  rw [execOutput, State.fallThrough_eq hip, ha]
  exact congrArg s.settle (if_pos hfull)

end

/-- Settles O16. -/
theorem inputStoresInputValue : Obligations.InputStoresInputValue :=
  fun _ _ _ _ hip ht hv => execInput_of_some hip ht hv

/-- Settles O17. -/
theorem outputAppendsValue : Obligations.OutputAppendsValue :=
  fun _ _ _ hip ha hfull => execOutput_of_not_full hip ha hfull

/-- Settles O30. -/
theorem portFailures : Obligations.PortFailures :=
  ⟨fun _ _ _ hip ht hv => execInput_of_none hip ht hv, fun _ _ _ hip ha hfull => execOutput_of_full hip ha hfull⟩

/-! ### The jumps (R110, R111, R113) -/

section
variable {s : State} {cond target : Operand} {c v : Word} (hip : s.ip.toNat + 3 ≤ addrMax)
  (hc : s.readOperand cond = .ok c) (hv : s.readOperand target = .ok v) {taken : Word → Bool}
include hip hc hv

/-- The course of a jump whose operands are resolved. -/
theorem State.jump_of_resolved : s.jump cond target taken =
    if taken c then if v.toInt < 0 then .next (s.raise ⟨.outOfRangeJump, v⟩) else .next (s.setIp v)
    else .next (s.setIp (s.ip + 3)) := by
  rw [State.jump, State.fallThrough_eq hip, hc, hv]
  change s.settle (if taken c then _ else _) = _
  split
  · split <;> rfl
  · rfl

theorem State.jump_of_taken (htaken : taken c = true) (h0 : 0 ≤ v.toInt) :
    s.jump cond target taken = .next (s.setIp v) := by
  rw [jump_of_resolved hip hc hv, if_pos htaken, if_neg (Int.not_lt.2 h0)]

theorem State.jump_of_taken_negative (htaken : taken c = true) (hneg : v.toInt < 0) :
    s.jump cond target taken = .next (s.raise ⟨.outOfRangeJump, v⟩) := by
  rw [jump_of_resolved hip hc hv, if_pos htaken, if_pos hneg]

theorem State.jump_of_untaken (huntaken : taken c = false) :
    s.jump cond target taken = .next (s.setIp (s.ip + 3)) := by
  rw [jump_of_resolved hip hc hv, if_neg (Bool.eq_false_iff.1 huntaken)]

end

/-- Settles O18. -/
theorem jumpIfTrueSetsIp : Obligations.JumpIfTrueSetsIp :=
  fun _ _ _ _ _ hip hc hv => ⟨fun hne h0 => State.jump_of_taken hip hc hv (bne_iff_ne.2 hne) h0,
    fun heq => State.jump_of_untaken hip hc hv (bne_eq_false_iff_eq.2 heq)⟩

/-- Settles O19. -/
theorem jumpIfFalseSetsIp : Obligations.JumpIfFalseSetsIp :=
  fun _ _ _ _ _ hip hc hv => ⟨fun heq h0 => State.jump_of_taken hip hc hv (beq_iff_eq.2 heq) h0,
    fun hne => State.jump_of_untaken hip hc hv (beq_eq_false_iff_ne.2 hne)⟩

/-- Settles O29. -/
theorem negativeJumpTargetFails : Obligations.NegativeJumpTargetFails :=
  fun _ _ _ _ _ hip hc hv hneg =>
    ⟨fun hne => State.jump_of_taken_negative hip hc hv (bne_iff_ne.2 hne) hneg,
      fun heq => State.jump_of_taken_negative hip hc hv (beq_iff_eq.2 heq) hneg⟩

/-! ### AdjustBase, and the three results that can overflow (R8, R130) -/

section
variable {s : State} {a : Operand} {v : Word} (hip : s.ip.toNat + 2 ≤ addrMax) (ha : s.readOperand a = .ok v)
include hip ha

theorem execAdjustBase_of_arith_ok {r : Word} (hr : arith s.config.overflowPolicy (s.rb.toInt + v.toInt) = .ok r) :
    execAdjustBase a s = .next ((s.setRb r).setIp (s.ip + 2)) := by
  rw [execAdjustBase, State.fallThrough_eq hip, ha]
  change s.settle (arith s.config.overflowPolicy (s.rb.toInt + v.toInt) >>= _) = _
  rw [hr]
  rfl

theorem execAdjustBase_of_arith_error {f : Failure}
    (hr : arith s.config.overflowPolicy (s.rb.toInt + v.toInt) = .error f) :
    execAdjustBase a s = .next (s.raise f) := by
  rw [execAdjustBase, State.fallThrough_eq hip, ha]
  change s.settle (arith s.config.overflowPolicy (s.rb.toInt + v.toInt) >>= _) = _
  rw [hr]
  rfl

end

/-- Settles O22. -/
theorem adjustBaseAddsToBase : Obligations.AdjustBaseAddsToBase :=
  fun _ _ _ hip ha hmin hmax =>
    ⟨_, toInt_wrap64_of_mem hmin hmax, execAdjustBase_of_arith_ok hip ha (arith_of_mem hmin hmax _)⟩

/-- Settles O24: the wrapped word of an exact sum or product is the sum or product of the words. -/
theorem overflowFailsOrWraps : Obligations.OverflowFailsOrWraps := by
  refine ⟨fun s a b dst x y t hip ha hb ht => ⟨?add, ?multiply⟩,
    fun s a v hip ha hv => ⟨fun hpolicy => ?fault, fun hpolicy => ?wrap⟩⟩
  case add => exact State.binary_of_overflow hip ha hb ht rfl (wrap64_toInt_add_toInt x y)
  case multiply => exact State.binary_of_overflow hip ha hb ht rfl (wrap64_toInt_mul_toInt x y)
  case fault =>
    refine execAdjustBase_of_arith_error hip ha ?_
    rw [hpolicy, arith_fault_of_not_mem hv, wrap64_toInt_add_toInt]
  case wrap =>
    refine execAdjustBase_of_arith_ok (r := s.rb + v) hip ha ?_
    rw [hpolicy, arith_wrap_of_not_mem hv, wrap64_toInt_add_toInt]

/-- Settles O23: Halt resolves nothing and makes no check. -/
theorem haltStopsInPlace : Obligations.HaltStopsInPlace :=
  fun _ => rfl

end Sys2Proof.Machine
end

section
/-! PROOFS. The obligations about failures (60_exceptions.md): which one a step reports, which an instruction may raise, and
that they are precise. -/

namespace Sys2Proof.Machine

/-! ### The checks before an instruction's own: the top of the address space, then its operands in order (R73, R77, R152) -/

/-- The resolution of operands in order, the first of them operand `k`. -/
def State.resolveFrom (s : State) (i : Instr) : Nat → List Operand → Except Failure Unit
  | _, [] => .ok ()
  | k, o :: os => s.resolve i k o >>= fun _ => s.resolveFrom i (k + 1) os

/-- The check of R73, then the resolution of all operands. -/
def State.precheck (s : State) (i : Instr) : Except Failure Unit :=
  (s.fallThrough i.opcode.arity).map (fun _ => ()) >>= fun _ => s.resolveFrom i 1 i.operands

/-- `r` fails as `p` does wherever `p` fails. -/
def FailsAs {α β : Type} (p : Except Failure α) (r : Except Failure β) : Prop :=
  ∀ f, p = .error f → r = .error f

theorem FailsAs.of_ok {α β : Type} (a : α) (r : Except Failure β) : FailsAs (.ok a) r :=
  fun _ h => nomatch h

theorem FailsAs.bind {α β γ : Type} {x : Except Failure α} {p : Except Failure β} {r : α → Except Failure γ}
    (h : ∀ a, FailsAs p (r a)) : FailsAs (x.map (fun _ => ()) >>= fun _ => p) (x >>= r) := by
  cases x with
  | error e => exact fun f hf => by cases hf; rfl
  | ok a => exact h a

theorem FailsAs.settle {α : Type} {p : Except Failure α} {r : Except Failure State} {s : State} {f : Failure}
    (hp : p = .error f) (h : FailsAs p r) : s.settle r = .next (s.raise f) := by
  rw [h f hp, State.settle]

/-- Every instruction but Halt makes these checks first, in this order. -/
theorem exec_of_precheck_error {s : State} {i : Instr} {f : Failure} (hi : i ≠ .halt) (h : s.precheck i = .error f) :
    exec i s = .next (s.raise f) := by
  cases i with
  | add | multiply | lessThan | equals =>
    exact FailsAs.settle h (.bind fun _ => .bind fun _ => .bind fun _ => .bind fun _ => .of_ok () _)
  | jumpIfTrue | jumpIfFalse => exact FailsAs.settle h (.bind fun _ => .bind fun _ => .bind fun _ => .of_ok () _)
  | input | output | adjustBase => exact FailsAs.settle h (.bind fun _ => .bind fun _ => .of_ok () _)
  | halt => exact absurd rfl hi

theorem State.fallThrough_error {s : State} {n : Nat} (h : addrMax < s.ip.toNat + (1 + n)) :
    s.fallThrough n = .error ⟨.invalidAddress, s.ip + BitVec.ofNat 64 (1 + n)⟩ := by
  rw [State.fallThrough, if_neg (by omega), wrap64, BitVec.ofInt_natCast, Nat.add_assoc, BitVec.ofNat_add,
    BitVec.ofNat_toNat, BitVec.setWidth_eq]

/-- Settles O27: the check of R73 is the first of all. -/
theorem topOfAddressSpaceFails : Obligations.TopOfAddressSpaceFails := by
  intro s i hi hip
  refine exec_of_precheck_error hi ?_
  rw [State.precheck, State.fallThrough_error hip]
  rfl

theorem State.resolveFrom_error {s : State} {i : Instr} {o : Operand} {f : Failure} {os : List Operand} {k n : Nat}
    (hbefore : ∀ j q, j < k → os[j]? = some q → s.resolve i (j + n) q = .ok ()) (hk : os[k]? = some o)
    (hf : s.resolve i (k + n) o = .error f) : s.resolveFrom i n os = .error f := by
  induction os generalizing k n with
  | nil => cases hk
  | cons q os ih =>
    cases k with
    | zero =>
      cases hk
      rw [Nat.zero_add] at hf
      rw [State.resolveFrom, hf]
      rfl
    | succ k =>
      have hq := hbefore 0 q (Nat.succ_pos k) rfl
      rw [Nat.zero_add] at hq
      rw [State.resolveFrom, hq]
      refine ih (k := k) (fun j q' hj hq' => ?_) hk (by rwa [Nat.add_right_comm] at hf)
      rw [← hbefore (j + 1) q' (Nat.succ_lt_succ hj) hq', Nat.add_right_comm]
      rfl

/-- Settles O28: with the check of R73 passed, the operands are what is left of the checks before an instruction's own. -/
theorem firstUnresolvedOperandIsReported : Obligations.FirstUnresolvedOperandIsReported := by
  intro s i k o f hip hbefore hk hf
  have hi : i ≠ .halt := by
    rintro rfl
    cases hk
  obtain ⟨next, hn⟩ := State.fallThrough_of_le hip
  refine exec_of_precheck_error hi ?_
  rw [State.precheck, hn]
  exact State.resolveFrom_error hbefore hk hf

/-! ### Precise failures (R150) -/

theorem Effect.eq_raise {i : Instr} {s t : State} {f : Failure} (h : Effect i s t) (hs : s.status = .running)
    (hf : t.status = .failed f) : t = s.raise f := by
  cases h with
  | fails g =>
    cases hf
    rfl
  | stores | appends | adjusts | jumps => cases hs.symm.trans hf
  | halts => cases hf

/-- Settles O31: of the effects of an instruction only the failure leaves a `Failed` state. -/
theorem failingStepChangesStatusOnly : Obligations.FailingStepChangesStatusOnly := by
  intro s t f h hf
  obtain ⟨hs, ⟨_, -, -, heffect⟩ | ⟨g, -, rfl⟩⟩ := step_cases h
  · exact ⟨hs, heffect.eq_raise hs hf⟩
  · cases hf
    exact ⟨hs, rfl⟩

/-! ### Where the failure of an instruction comes from (R140) -/

/-- The sources of a failure: the check of R73, an operand, or the instruction's own check. -/
inductive FailureSource (i : Instr) (s : State) (f : Failure) : Prop where
  | top (n : Nat) (h : s.fallThrough n = .error f)
  | source (o : Operand) (h : s.readOperand o = .error f)
  | destination (d : Operand) (hd : i.destination = some d) (h : s.writeTarget d = .error f)
  | overflow (hi : i.opcode = .add ∨ i.opcode = .multiply ∨ i.opcode = .adjustBase) (v : Int)
      (h : arith s.config.overflowPolicy v = .error f)
  | jumpTarget (hi : i.opcode = .jumpIfTrue ∨ i.opcode = .jumpIfFalse) (hf : f.reason = .outOfRangeJump)
  | noInput (hi : i.opcode = .input) (hf : f.reason = .inputExhausted)
  | outputFull (hi : i.opcode = .output) (hcap : s.config.outCapacity ≠ none) (hf : f.reason = .outputFull)

/-- Every failure in which an outcome ends has the property `P`. -/
def OnFailure (P : Failure → Prop) (o : Host.Outcome State Fault Refusal) : Prop :=
  ∀ t f, o = .next t → t.status = .failed f → P f

section
variable {P : Failure → Prop} {s : State}

theorem OnFailure.settle_error {f : Failure} (h : P f) : OnFailure P (s.settle (.error f)) := by
  rintro _ _ ⟨⟩ ⟨⟩
  exact h

theorem OnFailure.settle_ok {t : State} (h : t.status = .running) : OnFailure P (s.settle (.ok t)) := by
  rintro _ f ⟨⟩ hf
  cases h.symm.trans hf

theorem OnFailure.settle_bind {α : Type} {x : Except Failure α} {r : α → Except Failure State}
    (herror : ∀ f, x = .error f → P f) (hok : ∀ a, OnFailure P (s.settle (r a))) : OnFailure P (s.settle (x >>= r)) := by
  cases x with
  | error f => exact settle_error (herror f rfl)
  | ok a => exact hok a

end

section
variable {s : State} (hs : s.status = .running)
include hs

theorem State.binary_onFailure {i : Instr} {a b dst : Operand} {result : Word → Word → Except Failure Word}
    (hd : i.destination = some dst) (hr : ∀ x y f, result x y = .error f → FailureSource i s f) :
    OnFailure (FailureSource i s) (s.binary a b dst result) :=
  .settle_bind (fun _ h => .top 3 h) fun _ => .settle_bind (fun _ h => .source a h) fun _ =>
    .settle_bind (fun _ h => .source b h) fun _ => .settle_bind (fun _ h => .destination dst hd h) fun _ =>
      .settle_bind (hr _ _) fun _ => .settle_ok hs

theorem State.jump_onFailure {i : Instr} (cond target : Operand) (taken : Word → Bool)
    (hi : i.opcode = .jumpIfTrue ∨ i.opcode = .jumpIfFalse) :
    OnFailure (FailureSource i s) (s.jump cond target taken) := by
  refine .settle_bind (fun _ h => .top 2 h) fun _ => .settle_bind (fun _ h => .source cond h) fun _ =>
    .settle_bind (fun _ h => .source target h) fun _ => ?_
  split
  · split
    · exact .settle_error (.jumpTarget hi rfl)
    · exact .settle_ok hs
  · exact .settle_ok hs

theorem execInput_onFailure (dst : Operand) : OnFailure (FailureSource (.input dst) s) (execInput dst s) := by
  refine .settle_bind (fun _ h => .top 1 h) fun _ => .settle_bind (fun _ h => .destination dst rfl h) fun _ => ?_
  split
  · exact .settle_error (.noInput rfl rfl)
  · exact .settle_ok hs

theorem execOutput_onFailure (a : Operand) : OnFailure (FailureSource (.output a) s) (execOutput a s) := by
  refine .settle_bind (fun _ h => .top 1 h) fun _ => .settle_bind (fun _ h => .source a h) fun _ => ?_
  split
  · next hfull => exact .settle_error (.outputFull rfl (by rw [hfull]; nofun) rfl)
  · exact .settle_ok hs

theorem execAdjustBase_onFailure (a : Operand) :
    OnFailure (FailureSource (.adjustBase a) s) (execAdjustBase a s) :=
  .settle_bind (fun _ h => .top 1 h) fun _ => .settle_bind (fun _ h => .source a h) fun _ =>
    .settle_bind (fun _ h => .overflow (.inr (.inr rfl)) _ h) fun _ => .settle_ok hs

theorem exec_onFailure (i : Instr) : OnFailure (FailureSource i s) (exec i s) := by
  cases i with
  | add => exact State.binary_onFailure hs rfl fun _ _ _ h => .overflow (.inl rfl) _ h
  | multiply => exact State.binary_onFailure hs rfl fun _ _ _ h => .overflow (.inr (.inl rfl)) _ h
  | lessThan | equals => exact State.binary_onFailure hs rfl fun _ _ _ h => nomatch h
  | jumpIfTrue => exact State.jump_onFailure hs _ _ _ (.inl rfl)
  | jumpIfFalse => exact State.jump_onFailure hs _ _ _ (.inr rfl)
  | input dst => exact execInput_onFailure hs dst
  | output a => exact execOutput_onFailure hs a
  | adjustBase a => exact execAdjustBase_onFailure hs a
  | halt =>
    rintro _ _ ⟨⟩ hf
    cases hf

end

/-! ### The reason of a failure, by its source -/

theorem checkAddress_error {ea : Int} {f : Failure} (h : checkAddress ea = .error f) : f.reason = .invalidAddress := by
  obtain ⟨-, -, hok⟩ | ⟨-, herror⟩ := checkAddress_cases ea
  · cases hok.symm.trans h
  · cases herror.symm.trans h
    rfl

theorem State.fallThrough_error_reason {s : State} {n : Nat} {f : Failure} (h : s.fallThrough n = .error f) :
    f.reason = .invalidAddress := by
  rw [State.fallThrough] at h
  split at h
  · cases h
  · cases h
    rfl

theorem State.readOperand_error_reason {s : State} {o : Operand} {f : Failure} (h : s.readOperand o = .error f) :
    f.reason = .invalidAddress := by
  rw [State.readOperand] at h
  split at h
  · cases h
  · next ea _ =>
    cases hc : checkAddress ea with
    | ok a =>
      rw [hc] at h
      cases h
    | error g =>
      rw [hc] at h
      cases h
      exact checkAddress_error hc

/-- A destination past the end of memory is an address, so memory ends within the address space. -/
theorem State.writeTarget_error_reason {s : State} {o : Operand} {f : Failure} (h : s.writeTarget o = .error f) :
    f.reason = .invalidWriteTarget ∨ f.reason = .invalidAddress ∨
      f.reason = .memoryBounds ∧ s.config.memWords ≤ addrMax := by
  cases hea : s.effectiveAddress o with
  | none =>
    rw [State.writeTarget, hea] at h
    cases h
    exact .inl rfl
  | some ea =>
    obtain ⟨h0, h1, -⟩ | ⟨hout, -⟩ := checkAddress_cases ea
    · by_cases hmem : ea.toNat < s.config.memWords
      · cases (State.writeTarget_of_address hea h0 h1 hmem).symm.trans h
      · cases (State.writeTarget_of_beyond_memory hea h0 h1 (Nat.not_lt.1 hmem)).symm.trans h
        exact .inr (.inr ⟨rfl, by omega⟩)
    · cases (State.writeTarget_of_not_address hea hout).symm.trans h
      exact .inr (.inl rfl)

theorem arith_error_reason {policy : OverflowPolicy} {v : Int} {f : Failure} (h : arith policy v = .error f) :
    f.reason = .numericOverflow := by
  unfold arith at h
  split at h
  · cases h
  · split at h <;> cases h
    rfl

/-- Every instruction that has operands may raise what comes of its operands (R140). -/
theorem mayRaise_of_operands {i : Instr} (hi : i ≠ .halt) :
    mayRaise i .invalidAddress = true ∧
      (i.destination.isSome = true → mayRaise i .invalidWriteTarget = true ∧ mayRaise i .memoryBounds = true) := by
  cases i with
  | halt => exact absurd rfl hi
  | add | multiply | input | lessThan | equals => exact ⟨rfl, fun _ => ⟨rfl, rfl⟩⟩
  | output | jumpIfTrue | jumpIfFalse | adjustBase => exact ⟨rfl, nofun⟩

theorem mayRaise_numericOverflow (i : Instr) :
    mayRaise i .numericOverflow = (i.opcode == .add || i.opcode == .multiply || i.opcode == .adjustBase) := by
  cases i <;> rfl

theorem mayRaise_outOfRangeJump (i : Instr) :
    mayRaise i .outOfRangeJump = (i.opcode == .jumpIfTrue || i.opcode == .jumpIfFalse) := by
  cases i <;> rfl

theorem mayRaise_inputExhausted (i : Instr) : mayRaise i .inputExhausted = (i.opcode == .input) := by cases i <;> rfl

theorem mayRaise_outputFull (i : Instr) : mayRaise i .outputFull = (i.opcode == .output) := by cases i <;> rfl

/-- Settles O32, by the source of the failure. -/
theorem failureReasonsByInstruction : Obligations.FailureReasonsByInstruction := by
  intro s t i f hs h hf
  have hi : i ≠ .halt := by
    rintro rfl
    cases h
    cases hf
  obtain ⟨haddress, hdestination⟩ := mayRaise_of_operands hi
  cases exec_onFailure hs i t f h hf with
  | top n h => exact State.fallThrough_error_reason h ▸ haddress
  | source o h => exact State.readOperand_error_reason h ▸ haddress
  | destination d hd h =>
    obtain ⟨htarget, hbounds⟩ := hdestination (by rw [hd]; rfl)
    obtain hr | hr | ⟨hr, -⟩ := State.writeTarget_error_reason h <;> rw [hr]
    · exact htarget
    · exact haddress
    · exact hbounds
  | overflow hop v h =>
    rw [arith_error_reason h, mayRaise_numericOverflow]
    simpa [or_assoc] using hop
  | jumpTarget hop hr =>
    rw [hr, mayRaise_outOfRangeJump]
    simpa using hop
  | noInput hop hr =>
    rw [hr, mayRaise_inputExhausted]
    simpa using hop
  | outputFull hop _ hr =>
    rw [hr, mayRaise_outputFull]
    simpa using hop

theorem State.fetch_error_reason {s : State} {f : Failure} (h : s.fetch = .error f) : f.reason = .decodeError := by
  rw [State.fetch] at h
  split at h <;> cases h
  rfl

theorem FailReason.code_le_six {r : FailReason} (hbounds : r ≠ .memoryBounds) (hfull : r ≠ .outputFull) :
    1 ≤ r.code ∧ r.code ≤ 6 := by
  cases r with
  | memoryBounds => exact absurd rfl hbounds
  | outputFull => exact absurd rfl hfull
  | decodeError | invalidWriteTarget | outOfRangeJump | numericOverflow | inputExhausted | invalidAddress => decide

/-- Settles O33: `MemoryBounds` needs a memory smaller than the address space, `OutputFull` a capacity. -/
theorem sixReasonsByDefault : Obligations.SixReasonsByDefault := by
  intro s t f hmem hcap h hf
  suffices hr : f.reason ≠ .memoryBounds ∧ f.reason ≠ .outputFull from FailReason.code_le_six hr.1 hr.2
  obtain ⟨hs, ⟨i, -, hexec, -⟩ | ⟨g, hg, rfl⟩⟩ := step_cases h
  · cases exec_onFailure hs i t f hexec hf with
    | top n h => simp [State.fallThrough_error_reason h]
    | source o h => simp [State.readOperand_error_reason h]
    | destination d _ h =>
      obtain hr | hr | ⟨-, hle⟩ := State.writeTarget_error_reason h
      · simp [hr]
      · simp [hr]
      · rw [hmem] at hle
        exact absurd hle (by decide)
    | overflow _ v h => simp [arith_error_reason h]
    | jumpTarget _ hr => simp [hr]
    | noInput _ hr => simp [hr]
    | outputFull _ hne _ => exact absurd hcap hne
  · cases hf
    simp [State.fetch_error_reason hg]

/-! ### Refused words (R56, R72, R178) -/

/-- Settles O38: the fetch carries the refusal into the step. -/
theorem illegalWordIsDecodeError : Obligations.IllegalWordIsDecodeError :=
  fun _ _ hs h => step_of_fetch_error hs (State.fetch_of_decode_error h)

/-- Settles O40: were the word accepted, it would not be negative and its opcode number would be its opcode's. -/
theorem unrecognizedOpcodeFails : Obligations.UnrecognizedOpcodeFails := by
  intro s hs hword
  cases hdec : decode s.config.unusedDigitsFault (s.memRead s.ip.toNat) (fun k => s.memRead (s.ip.toNat + k)) with
  | error r => exact illegalWordIsDecodeError s r hs hdec
  | ok i =>
    obtain ⟨h0, hop, -⟩ := decode_ok hdec
    obtain hneg | hnone := hword
    · exact absurd hneg (Int.not_lt.2 h0)
    · exact absurd (Opcode.number_of_ofNumber hop) (hnone i.opcode)

theorem number_ne_zero (op : Opcode) : op.number ≠ 0 := by cases op <;> decide

/-- Settles O52: no opcode has the number 0. -/
theorem emptyMemoryFailsToDecode : Obligations.EmptyMemoryFailsToDecode := by
  intro s hs hzero
  rw [unrecognizedOpcodeFails s hs (.inr fun op => ?_), hzero]
  rw [hzero]
  exact number_ne_zero op

/-- Settles O55. -/
theorem failureCodes : Obligations.FailureCodes :=
  ⟨rfl, rfl, rfl, rfl, rfl, rfl, rfl, rfl⟩

end Sys2Proof.Machine
end

section
/-! PROOFS. The obligations about what an instruction leaves unchanged, who writes each element of the state, and the invariant
(10_state.md). -/

namespace Sys2Proof.Machine

/-! ### Each update keeps the invariant (R20) -/

section
variable {s : State} (hs : s.inv)
include hs

theorem State.inv_raise (f : Failure) : (s.raise f).inv := hs

theorem State.inv_halt : s.halt.inv := hs

theorem State.inv_setRb (r : Word) : (s.setRb r).inv := hs

theorem State.inv_supplyInput (v : Word) : (s.supplyInput v).inv := hs

theorem State.inv_setIp {ip : Word} (hip : ip.toNat ≤ addrMax) : (s.setIp ip).inv := by
  obtain ⟨hvalid, hwf, hlen, -, hout⟩ := hs
  exact ⟨hvalid, hwf, hlen, hip, hout⟩

theorem State.inv_memWrite {a : Nat} (ha : a < s.config.memWords) (v : Word) : (s.memWrite a v).inv := by
  obtain ⟨hvalid, hwf, hlen, hip, hout⟩ := hs
  refine ⟨hvalid, Memory.write_wf hwf a v, ?_, hip, hout⟩
  rw [State.memWrite_mem, Memory.write_len, State.memWrite_config]
  split
  · exact ha
  · exact hlen

/-- `OUT` below its capacity has room for one element more (R17, R102). -/
theorem State.inv_append (hfull : s.config.outCapacity ≠ some s.output.length) (v : Word) : (s.append v).inv := by
  obtain ⟨hvalid, hwf, hlen, hip, hout⟩ := hs
  refine ⟨hvalid, hwf, hlen, hip, ?_⟩
  rw [State.append_config, State.append_output, List.length_append, List.length_singleton]
  cases hcap : s.config.outCapacity with
  | none => rfl
  | some n =>
    rw [hcap] at hout hfull
    have hle : s.output.length ≤ n := by simpa using hout
    have hne : n ≠ s.output.length := fun e => hfull (congrArg some e)
    simp only [Option.all_some, decide_eq_true_eq]
    omega

end

theorem Effect.inv {i : Instr} {s t : State} (h : Effect i s t) (hs : s.inv) : t.inv := by
  cases h with
  | fails f => exact State.inv_raise hs f
  | stores d a v ip _ ha hip => exact State.inv_setIp (State.inv_memWrite hs (State.writeTarget_ok ha).2.2 v) hip
  | appends a v ip _ hfull hip => exact State.inv_setIp (State.inv_append hs hfull v) hip
  | adjusts a r ip _ hip => exact State.inv_setIp (State.inv_setRb hs r) hip
  | jumps cond target ip _ hip => exact State.inv_setIp hs hip
  | halts _ => exact State.inv_halt hs

/-- Settles O47: a step is one effect of its instruction, each of which keeps the invariant, or a failure to decode. -/
theorem stepKeepsInvariant : Obligations.StepKeepsInvariant := by
  intro s t hs h
  obtain ⟨-, ⟨_, -, -, heffect⟩ | ⟨f, -, rfl⟩⟩ := step_cases h
  · exact heffect.inv hs
  · exact State.inv_raise hs f

/-! ### Frames, from the one effect of an instruction (R10 to R17, R77) -/

/-- An instruction that answers a state answers one of its effects. -/
theorem effect_of_exec {i : Instr} {s t : State} (h : exec i s = .next t) : Effect i s t := by
  obtain ⟨u, hu, heffect⟩ := exec_effect i s
  cases hu.symm.trans h
  exact heffect

namespace Effect

variable {i : Instr} {s t : State} (h : Effect i s t)
include h

theorem input_eq : t.input = s.input := by cases h <;> rfl

theorem config_eq : t.config = s.config := by cases h <;> rfl

theorem rb_eq (hi : ∀ a, i ≠ .adjustBase a) : t.rb = s.rb := by
  cases h with
  | adjusts a r ip ha => exact absurd ha (hi a)
  | fails | stores | appends | jumps | halts => rfl

theorem output_eq (hi : ∀ a, i ≠ .output a) : t.output = s.output := by
  cases h with
  | appends a v ip ha => exact absurd ha (hi a)
  | fails | stores | adjusts | jumps | halts => rfl

theorem status_eq_or_raise (hi : i ≠ .halt) : t.status = s.status ∨ ∃ f, t = s.raise f := by
  cases h with
  | fails f => exact .inr ⟨f, rfl⟩
  | halts hh => exact absurd hh hi
  | stores | appends | adjusts | jumps => exact .inl rfl

/-- Memory takes one write of a resolved destination, or stays. -/
theorem mem_eq_or_write :
    t.mem = s.mem ∨ ∃ d a v, i.destination = some d ∧ s.writeTarget d = .ok a ∧ t.mem = s.mem.write a v := by
  cases h with
  | stores d a v ip hd ha => exact .inr ⟨d, a, v, hd, ha, rfl⟩
  | fails | appends | adjusts | jumps | halts => exact .inl rfl

theorem mem_eq (hd : i.destination = none) : t.mem = s.mem := by
  obtain hmem | ⟨d, -, -, hsome, -⟩ := h.mem_eq_or_write
  · exact hmem
  · cases hd.symm.trans hsome

theorem memRead_eq_of_ne {d : Operand} {a x : Nat} (hd : i.destination = some d) (ha : s.writeTarget d = .ok a)
    (hx : x ≠ a) : t.memRead x = s.memRead x := by
  obtain hmem | ⟨e, b, v, he, hb, hmem⟩ := h.mem_eq_or_write
  · rw [State.memRead, hmem, State.memRead]
  · cases hd.symm.trans he
    cases ha.symm.trans hb
    rw [State.memRead, hmem, Memory.read_write, if_neg hx, State.memRead]

theorem mem_eq_of_writeTarget_error {d : Operand} {f : Failure} (hd : i.destination = some d)
    (hf : s.writeTarget d = .error f) : t.mem = s.mem := by
  obtain hmem | ⟨e, b, -, he, hb, -⟩ := h.mem_eq_or_write
  · exact hmem
  · cases hd.symm.trans he
    cases hf.symm.trans hb

theorem len_le : s.mem.len ≤ t.mem.len := by
  obtain hmem | ⟨-, a, v, -, -, hmem⟩ := h.mem_eq_or_write <;> rw [hmem]
  exact Memory.len_le_write_len s.mem a v

end Effect

theorem State.memRead_congr {s t : State} (h : t.mem = s.mem) (x : Nat) : t.memRead x = s.memRead x := by
  rw [State.memRead, h, State.memRead]

/-- Settles O34: the one effect of such an instruction, if it does not fail, is a write of its destination. -/
theorem storingInstructionFrame : Obligations.StoringInstructionFrame := by
  intro a b dst s t i hi h
  have heffect := effect_of_exec h
  obtain ⟨hd, hbase, hout, hhalt⟩ :
      i.destination = some dst ∧ (∀ c, i ≠ .adjustBase c) ∧ (∀ c, i ≠ .output c) ∧ i ≠ .halt := by
    simp only [List.mem_cons, List.not_mem_nil, or_false] at hi
    obtain rfl | rfl | rfl | rfl | rfl := hi <;> exact ⟨rfl, nofun, nofun, nofun⟩
  exact ⟨heffect.rb_eq hbase, heffect.input_eq, heffect.output_eq hout, heffect.config_eq,
    heffect.status_eq_or_raise hhalt, fun target ht x hx => heffect.memRead_eq_of_ne hd ht hx,
    fun f hf => State.memRead_congr (heffect.mem_eq_of_writeTarget_error hd hf)⟩

/-- Settles O35: a jump has no destination. -/
theorem jumpFrame : Obligations.JumpFrame := by
  intro cond target s t i hi h
  have heffect := effect_of_exec h
  obtain ⟨hd, hbase, hout, hhalt⟩ :
      i.destination = none ∧ (∀ c, i ≠ .adjustBase c) ∧ (∀ c, i ≠ .output c) ∧ i ≠ .halt := by
    simp only [List.mem_cons, List.not_mem_nil, or_false] at hi
    obtain rfl | rfl := hi <;> exact ⟨rfl, nofun, nofun, nofun⟩
  have hmem := heffect.mem_eq hd
  exact ⟨hmem, State.memRead_congr hmem, heffect.rb_eq hbase, heffect.input_eq, heffect.output_eq hout,
    heffect.config_eq, heffect.status_eq_or_raise hhalt⟩

/-- Settles O36: none of the three has a destination, and each element left has one writer. -/
theorem outputBaseHaltFrame : Obligations.OutputBaseHaltFrame := by
  intro a s t i hi h
  have heffect := effect_of_exec h
  obtain ⟨hd, hbase, hout⟩ : i.destination = none ∧ (i ≠ .adjustBase a → ∀ c, i ≠ .adjustBase c) ∧
      (i ≠ .output a → ∀ c, i ≠ .output c) := by
    simp only [List.mem_cons, List.not_mem_nil, or_false] at hi
    obtain rfl | rfl | rfl := hi
    · exact ⟨rfl, nofun, fun hne => absurd rfl hne⟩
    · exact ⟨rfl, fun hne => absurd rfl hne, nofun⟩
    · exact ⟨rfl, nofun, nofun⟩
  have hmem := heffect.mem_eq hd
  refine ⟨hmem, State.memRead_congr hmem, heffect.input_eq, heffect.config_eq, fun hne => heffect.rb_eq (hbase hne),
    fun hne => heffect.output_eq (hout hne), ?_, heffect.status_eq_or_raise⟩
  rintro rfl
  cases h
  rfl

/-- Settles O44: each element's writers are read off the effect of the step's instruction; a word that does not decode writes
none. -/
theorem whoWritesEachElement : Obligations.WhoWritesEachElement := by
  intro s t h
  obtain ⟨hs, ⟨i, hi, hexec, heffect⟩ | ⟨f, -, rfl⟩⟩ := step_cases h
  · refine ⟨fun hmem => ?mem, fun hip => ?ip, fun hrb => ?rb, fun hout => ?out, fun hhalted => ?halted,
      heffect.input_eq, heffect.config_eq, heffect.len_le⟩
    case mem =>
      obtain heq | ⟨d, a, v, hd, ha, hwrite⟩ := heffect.mem_eq_or_write
      · exact absurd heq hmem
      · exact ⟨i, d, a, v, hi, hd, ha, hwrite⟩
    case ip =>
      refine ⟨fun f hf => hip (by rw [heffect.eq_raise hs hf, State.raise_ip]), i, hi, ?_⟩
      rintro rfl
      cases hexec
      exact hip rfl
    case rb =>
      by_contra hnone
      exact hrb (heffect.rb_eq fun a ha => hnone ⟨a, ha ▸ hi⟩)
    case out =>
      cases heffect with
      | appends a v ip ha => exact ⟨a, v, ha ▸ hi, rfl⟩
      | fails | stores | adjusts | jumps | halts => exact absurd rfl hout
    case halted =>
      by_contra hne
      obtain hstatus | ⟨f, rfl⟩ := heffect.status_eq_or_raise fun hh => hne (hh ▸ hi)
      · cases hs.symm.trans (hstatus.symm.trans hhalted)
      · cases hhalted
  · exact ⟨fun hmem => absurd rfl hmem, fun hip => absurd rfl hip, fun hrb => absurd rfl hrb, fun hout => absurd rfl hout,
      nofun, rfl, rfl, Nat.le_refl _⟩

end Sys2Proof.Machine
end

section
/-! PROOFS. The obligations about the step and the run (40_execution_step.md): which instruction a step runs, what the next
fetch sees, and the cells a step depends on (20_memory.md sections 4 and 5). -/

namespace Sys2Proof.Machine

/-! ### The instruction a step runs (R71, R79) -/

theorem State.fetch_of_decode_ok {s : State} {i : Instr}
    (h : decode s.config.unusedDigitsFault (s.memRead s.ip.toNat) (fun k => s.memRead (s.ip.toNat + k)) = .ok i) :
    s.fetch = .ok i := by
  rw [State.fetch, State.fetchWord, h]

theorem State.decode_of_fetch_ok {s : State} {i : Instr} (h : s.fetch = .ok i) :
    decode s.config.unusedDigitsFault (s.memRead s.ip.toNat) (fun k => s.memRead (s.ip.toNat + k)) = .ok i := by
  rw [State.fetch] at h
  split at h <;> cases h
  assumption

/-- Settles O37. -/
theorem stepRunsDecodedInstruction : Obligations.StepRunsDecodedInstruction :=
  fun _ _ hs h => step_of_fetch_ok hs (State.fetch_of_decode_ok h)

/-- The placed state is the running one with another memory, in which the words stand from `IP` on. -/
theorem State.withFetchWord_placed {s : State} (hmem : s.ip.toNat + 4 ≤ s.config.memWords) (nbits w : Nat) :
    (∃ m, s.withFetchWord nbits w = { s with status := .running, mem := m }) ∧
      ∀ k, k < 4 → (s.withFetchWord nbits w).memRead (s.ip.toNat + k) = (tableWords nbits w).getD k 0 := by
  obtain ⟨hread, -, hplaced⟩ := placeWords_read (tableWords nbits w) { s with status := .running } s.ip.toNat hmem
  exact ⟨hplaced, hread⟩

theorem decode_of_decodeTableWord {nbits w : Nat} {i : Instr} (h : decodeTableWord nbits w = some i) :
    decode false ((tableWords nbits w).getD 0 0) (fun k => (tableWords nbits w).getD k 0) = .ok i := by
  rw [decodeTableWord] at h
  split at h
  · next hw =>
    cases h
    obtain ⟨hdec, -⟩ := decodeWords_cons_ok hw
    exact decode_congr_params hdec fun k _ => rfl
  · cases h

/-- Settles O56. An instruction has at most three parameters, so that all its words are among the four placed. -/
theorem placedInstructionRuns : Obligations.PlacedInstructionRuns := by
  intro s nbits w i hlax hmem hdec
  obtain ⟨⟨m, hplaced⟩, hread⟩ := State.withFetchWord_placed hmem nbits w
  have hip : (s.withFetchWord nbits w).ip = s.ip := by rw [hplaced]
  have hconfig : (s.withFetchWord nbits w).config = s.config := by rw [hplaced]
  have hword := hread 0 (by decide)
  rw [Nat.add_zero] at hword
  refine step_of_fetch_ok (by rw [hplaced]) (State.fetch_of_decode_ok ?_)
  rw [hip, hconfig, hlax, hword]
  refine decode_congr_params (decode_of_decodeTableWord hdec) fun k hk => hread (k + 1) ?_
  have harity := i.opcode.arity_le
  omega

/-! ### One outcome of a run (R70, R81) -/

theorem State.run_eq_of_le {s : State} {m n : Nat} (hmn : m ≤ n) (hm : (s.run m).status ≠ .running) :
    s.run m = s.run n := by
  obtain ⟨k, rfl⟩ := Nat.exists_eq_add_of_le hmn
  rw [State.run_add, State.run_of_not_running hm]

/-- Settles O42: the longer run goes on from a state that no step changes. -/
theorem runOutcomeIsUnique : Obligations.RunOutcomeIsUnique := by
  intro s m n hm hn
  obtain hmn | hnm := Nat.le_total m n
  · exact State.run_eq_of_le hmn hm
  · exact (State.run_eq_of_le hnm hn).symm

/-! ### The next fetch sees a store (R43) -/

/-- An instruction with its destination resolved and a word to store stores it and advances. -/
theorem exec_of_storedWord {s : State} {i : Instr} {d : Operand} {a : Nat} {v : Word} (hd : i.destination = some d)
    (hip : s.ip.toNat + i.length ≤ addrMax) (ha : s.writeTarget d = .ok a) (hv : s.storedWord i = some v) :
    exec i s = .next ((s.memWrite a v).setIp (s.ip + BitVec.ofNat 64 i.length)) := by
  cases i with
  | add | multiply | lessThan =>
    cases hd
    obtain ⟨x, y, hx, hy, hr⟩ := State.combine_eq_some.1 hv
    exact State.binary_of_result_ok hip hx hy ha hr
  | equals =>
    cases hd
    obtain ⟨x, y, hx, hy, hr⟩ := State.combine_eq_some.1 hv
    rw [← truthWord_toInt_eq] at hr
    exact State.binary_of_result_ok hip hx hy ha hr
  | input =>
    cases hd
    exact execInput_of_some hip ha hv
  | output | jumpIfTrue | jumpIfFalse | adjustBase | halt => cases hd

theorem toNat_add_ofNat {w : Word} {n : Nat} (h : w.toNat + n ≤ addrMax) : (w + BitVec.ofNat 64 n).toNat = w.toNat + n := by
  simp only [addrMax] at h
  rw [BitVec.toNat_add, BitVec.toNat_ofNat]
  omega

/-- Settles O45: the next fetch is an ordinary read of the memory after the store. -/
theorem nextFetchSeesStore : Obligations.NextFetchSeesStore := by
  intro s i d a v hs hi hd hip ha hv
  have hread := s.memRead_memWrite a (v := v)
  refine ⟨_, (step_of_fetch_ok hs hi).trans (exec_of_storedWord hd hip ha hv), hs, toNat_add_ofNat hip, fun h => ?_,
    hread, fun j hj => State.fetch_of_decode_ok ?_⟩
  · rw [State.fetchWord, State.setIp_memRead, hread, if_pos h.symm]
  · simp only [State.setIp_memRead, hread]
    exact hj

/-! ### A step depends only on the cells its instruction reads (R45) -/

/-- The same machine with another memory. -/
def State.withMem (s : State) (m : Memory) : State :=
  { s with mem := m }

theorem State.readOperand_withMem {s : State} {m : Memory} {o : Operand}
    (h : ∀ a ∈ s.sourceCell o, m.read a = s.memRead a) : (s.withMem m).readOperand o = s.readOperand o := by
  cases hea : s.effectiveAddress o with
  | none =>
    have hea' : (s.withMem m).effectiveAddress o = none := hea
    rw [State.readOperand, State.readOperand, hea, hea']
  | some ea =>
    have hea' : (s.withMem m).effectiveAddress o = some ea := hea
    obtain ⟨h0, h1, -⟩ | ⟨hout, -⟩ := checkAddress_cases ea
    · have hcell : ea.toNat ∈ s.sourceCell o := by
        simp only [State.sourceCell, hea]
        rw [if_pos ⟨h0, h1⟩]
        exact List.mem_singleton_self _
      rw [State.readOperand_of_address hea h0 h1, State.readOperand_of_address hea' h0 h1, ← h _ hcell]
      rfl
    · rw [State.readOperand_of_not_address hea hout, State.readOperand_of_not_address hea' hout]

theorem State.fetch_withMem {s : State} {m : Memory} {i : Instr} (hi : s.fetch = .ok i)
    (h : ∀ k, k < i.length → m.read (s.ip.toNat + k) = s.memRead (s.ip.toNat + k)) : (s.withMem m).fetch = .ok i := by
  refine State.fetch_of_decode_ok ?_
  have hword : (s.withMem m).memRead s.ip.toNat = s.memRead s.ip.toNat := h 0 (by rw [Instr.length]; omega)
  change decode s.config.unusedDigitsFault ((s.withMem m).memRead s.ip.toNat) _ = _
  rw [hword]
  exact decode_congr_params (State.decode_of_fetch_ok hi) fun k hk => h (k + 1) (by rw [Instr.length]; omega)

/-- The outcome `o` from `s` and the outcome `o'` from `s` with the memory `m` differ in memory only, and make the same
write. -/
def AlikeButMem (i : Instr) (s : State) (m : Memory) (o o' : Host.Outcome State Fault Refusal) : Prop :=
  ∀ t, o = .next t → ∃ m', o' = .next (t.withMem m') ∧
    ((t.mem = s.mem ∧ m' = m) ∨ ∃ d a v, i.destination = some d ∧ s.writeTarget d = .ok a ∧
      t.mem = s.mem.write a v ∧ m' = m.write a v)

section
variable {i : Instr} {s : State} {m : Memory}

theorem AlikeButMem.next_of_mem_eq {t : State} (h : t.mem = s.mem) :
    AlikeButMem i s m (.next t) (.next (t.withMem m)) := by
  rintro _ ⟨⟩
  exact ⟨m, rfl, .inl ⟨h, rfl⟩⟩

theorem AlikeButMem.next_of_write {d : Operand} {a : Nat} (hd : i.destination = some d) (ha : s.writeTarget d = .ok a)
    (v ip : Word) : AlikeButMem i s m (.next ((s.memWrite a v).setIp ip)) (.next (((s.withMem m).memWrite a v).setIp ip)) := by
  rintro _ ⟨⟩
  exact ⟨m.write a v, rfl, .inr ⟨d, a, v, hd, ha, rfl, rfl⟩⟩

/-- A computation that memory has no part in may be followed alike. -/
theorem AlikeButMem.settle_bind {α : Type} {x : Except Failure α} {r r' : α → Except Failure State}
    (h : ∀ a, x = .ok a → AlikeButMem i s m (s.settle (r a)) ((s.withMem m).settle (r' a))) :
    AlikeButMem i s m (s.settle (x >>= r)) ((s.withMem m).settle (x >>= r')) := by
  cases x with
  | error f => exact next_of_mem_eq (t := s.raise f) rfl
  | ok a => exact h a rfl

theorem AlikeButMem.settle_ite {c : Prop} [Decidable c] {p p' q q' : Except Failure State}
    (hp : AlikeButMem i s m (s.settle p) ((s.withMem m).settle p'))
    (hq : AlikeButMem i s m (s.settle q) ((s.withMem m).settle q')) :
    AlikeButMem i s m (s.settle (if c then p else q)) ((s.withMem m).settle (if c then p' else q')) := by
  split
  · exact hp
  · exact hq

theorem State.binary_withMem {a b dst : Operand} (hd : i.destination = some dst)
    (ha : (s.withMem m).readOperand a = s.readOperand a) (hb : (s.withMem m).readOperand b = s.readOperand b)
    (result : Word → Word → Except Failure Word) :
    AlikeButMem i s m (s.binary a b dst result) ((s.withMem m).binary a b dst result) := by
  rw [State.binary, State.binary, ha, hb]
  exact .settle_bind fun _ _ => .settle_bind fun _ _ => .settle_bind fun _ _ => .settle_bind fun _ ht =>
    .settle_bind fun _ _ => .next_of_write hd ht _ _

theorem State.jump_withMem {cond target : Operand} (hc : (s.withMem m).readOperand cond = s.readOperand cond)
    (ht : (s.withMem m).readOperand target = s.readOperand target) (taken : Word → Bool) :
    AlikeButMem i s m (s.jump cond target taken) ((s.withMem m).jump cond target taken) := by
  rw [State.jump, State.jump, hc, ht]
  exact .settle_bind fun next _ => .settle_bind fun _ _ => .settle_bind fun v _ =>
    .settle_ite
      (.settle_ite (.next_of_mem_eq (t := s.raise ⟨.outOfRangeJump, v⟩) rfl) (.next_of_mem_eq (t := s.setIp v) rfl))
      (.next_of_mem_eq (t := s.setIp next) rfl)

theorem execInput_withMem {dst : Operand} (hd : i.destination = some dst) :
    AlikeButMem i s m (execInput dst s) (execInput dst (s.withMem m)) := by
  refine .settle_bind fun next _ => .settle_bind fun a ha => ?_
  have hin : (s.withMem m).input = s.input := rfl
  rw [hin]
  cases s.input with
  | none => exact .next_of_mem_eq (t := s.raise ⟨.inputExhausted, 0⟩) rfl
  | some v => exact .next_of_write hd ha v next

theorem execOutput_withMem {a : Operand} (ha : (s.withMem m).readOperand a = s.readOperand a) :
    AlikeButMem i s m (execOutput a s) (execOutput a (s.withMem m)) := by
  rw [execOutput, execOutput, ha]
  exact .settle_bind fun next _ => .settle_bind fun v _ =>
    .settle_ite (.next_of_mem_eq (t := s.raise ⟨.outputFull, v⟩) rfl) (.next_of_mem_eq (t := (s.append v).setIp next) rfl)

theorem execAdjustBase_withMem {a : Operand} (ha : (s.withMem m).readOperand a = s.readOperand a) :
    AlikeButMem i s m (execAdjustBase a s) (execAdjustBase a (s.withMem m)) := by
  rw [execAdjustBase, execAdjustBase, ha]
  exact .settle_bind fun next _ => .settle_bind fun _ _ => .settle_bind fun r _ =>
    .next_of_mem_eq (t := (s.setRb r).setIp next) rfl

/-- An instruction sees memory through its sources alone. -/
theorem exec_withMem (h : ∀ o ∈ i.sources, (s.withMem m).readOperand o = s.readOperand o) :
    AlikeButMem i s m (exec i s) (exec i (s.withMem m)) := by
  cases i with
  | add a b | multiply a b | lessThan a b | equals a b =>
    exact State.binary_withMem rfl (h a (.head _)) (h b (.tail _ (.head _))) _
  | jumpIfTrue a b | jumpIfFalse a b => exact State.jump_withMem (h a (.head _)) (h b (.tail _ (.head _))) _
  | input => exact execInput_withMem rfl
  | output a => exact execOutput_withMem (h a (.head _))
  | adjustBase a => exact execAdjustBase_withMem (h a (.head _))
  | halt => exact .next_of_mem_eq (t := s.halt) rfl

end

/-- Settles O46: agreement on the cells read gives the same instruction and the same source values, and nothing else of memory
is looked at. -/
theorem stepDependsOnlyOnReadCells : Obligations.StepDependsOnlyOnReadCells := by
  intro s t i m hs hi hcells h
  have hwords : ∀ k, k < i.length → m.read (s.ip.toNat + k) = s.memRead (s.ip.toNat + k) := fun k hk =>
    hcells _ (List.mem_append_left _ (List.mem_map_of_mem (List.mem_range.2 hk)))
  have hsources : ∀ o ∈ i.sources, (s.withMem m).readOperand o = s.readOperand o := fun o ho =>
    State.readOperand_withMem fun a ha => hcells a (List.mem_append_right _ (List.mem_flatMap.2 ⟨o, ho, ha⟩))
  rw [step_of_fetch_ok hs hi] at h
  obtain ⟨m', hexec, hmem⟩ := exec_withMem hsources t h
  have hstep := step_of_fetch_ok (s := s.withMem m) hs (State.fetch_withMem hi hwords)
  exact ⟨m', hstep.trans hexec, hmem⟩

end Sys2Proof.Machine
end

section
/-! PROOFS. The obligations about the host's side: reset, launch and runs from it (70_reset_and_hazards.md), and the program
text (30_encoding.md section 5). -/

namespace Sys2Proof.Machine

/-! ### Reset (R21, R170) -/

theorem State.reset_memRead (a : Nat) : State.reset.memRead a = 0 :=
  State.memRead_eq_zero_of_len_le (Nat.zero_le a)

/-- Settles O48. -/
theorem resetStateValues : Obligations.ResetStateValues :=
  ⟨rfl, rfl, rfl, rfl, rfl, rfl, State.reset_memRead, by decide⟩

/-- Settles O49. -/
theorem restartDiscardsAll : Obligations.RestartDiscardsAll := by
  intro s u h
  exact ⟨by rw [State.restart, State.restart, h], rfl, rfl, rfl, rfl, rfl, State.reset_memRead⟩

/-! ### The launch state (R172 to R175) -/

theorem State.patchAll_cons (s : State) (p : Nat × Word) (ps : List (Nat × Word)) :
    s.patchAll (p :: ps) = s.patch p.1 p.2 >>= fun t => t.patchAll ps := rfl

theorem State.patch_of_lt {s : State} {a : Nat} (hvalid : s.config.valid) (ha : a < s.config.memWords) (v : Word) :
    s.patch a v = .ok (s.memWrite a v) := by
  obtain ⟨-, hmem, -⟩ := hvalid
  refine if_pos ⟨?_, ha⟩
  simp only [addrMax]
  omega

theorem State.patch_of_le {s : State} {a : Nat} (ha : s.config.memWords ≤ a) (v : Word) :
    s.patch a v = .error (.patchOutOfBounds a) :=
  if_neg fun h => absurd h.2 (Nat.not_lt.2 ha)

/-- Patches that fit are writes in their order. -/
theorem State.patchAll_of_lt {s : State} {ps : List (Nat × Word)} (hvalid : s.config.valid)
    (hps : ∀ p ∈ ps, p.1 < s.config.memWords) : s.patchAll ps = .ok (s.withMem (s.mem.writeAll ps)) := by
  induction ps generalizing s with
  | nil => rfl
  | cons p ps ih =>
    rw [patchAll_cons, patch_of_lt hvalid (hps p (.head _))]
    exact ih (s := s.memWrite p.1 p.2) hvalid fun q hq => hps q (.tail _ hq)

theorem State.patchAll_of_le {s : State} {ps : List (Nat × Word)} {p : Nat × Word} (hvalid : s.config.valid)
    (hp : p ∈ ps) (hle : s.config.memWords ≤ p.1) : ∃ e, s.patchAll ps = .error e := by
  induction ps generalizing s with
  | nil => cases hp
  | cons q ps ih =>
    rw [patchAll_cons]
    obtain hq | hq := Nat.lt_or_ge q.1 s.config.memWords
    · rw [patch_of_lt hvalid hq]
      obtain rfl | hp := List.mem_cons.1 hp
      · exact absurd hle (Nat.not_le.2 hq)
      · exact ih (s := s.memWrite q.1 q.2) hvalid hp hle
    · rw [patch_of_le hq]
      exact ⟨_, rfl⟩

/-- The reset state with the image, the patches and the input value. -/
def launched (c : Config) (image : List Word) (patches : List (Nat × Word)) (input : Option Word) : State :=
  { State.reset with config := c, mem := (Memory.ofImage image).writeAll patches, input := input }

section
variable {c : Config} {image : List Word} {patches : List (Nat × Word)} {input : Option Word} (hvalid : c.valid)
include hvalid

theorem launch_of_fits (himage : image.length ≤ c.memWords) (hpatches : ∀ p ∈ patches, p.1 < c.memWords) :
    launch c image patches input = .ok (launched c image patches input) := by
  have hload : ({ State.reset with config := c } : State).load image =
      .ok { State.reset with config := c, mem := Memory.ofImage image } := if_pos himage
  rw [launch, hload]
  change (State.patchAll _ patches >>= _) = _
  rw [State.patchAll_of_lt hvalid hpatches]
  cases input <;> rfl

theorem launch_of_not_fits (h : c.memWords < image.length ∨ ∃ p ∈ patches, c.memWords ≤ p.1) :
    ∃ e, launch c image patches input = .error e := by
  rw [launch, State.load]
  split
  · next himage =>
    obtain hlt | ⟨p, hp, hle⟩ := h
    · exact absurd hlt (Nat.not_lt.2 himage)
    · change ∃ e, (State.patchAll _ patches >>= _) = Except.error e
      obtain ⟨e, he⟩ := State.patchAll_of_le
        (s := { State.reset with config := c, mem := Memory.ofImage image }) hvalid hp hle
      rw [he]
      exact ⟨e, rfl⟩
  · exact ⟨_, rfl⟩

end

theorem Memory.writeAll_len (m : Memory) (ws : List (Nat × Word)) :
    (m.writeAll ws).len = ws.foldl (fun n p => max n (p.1 + 1)) m.len := by
  induction ws generalizing m with
  | nil => rfl
  | cons p ws ih =>
    have hlen : (m.write p.1 p.2).len = max m.len (p.1 + 1) := by
      rw [write_len]
      split <;> omega
    rw [writeAll_cons, ih, hlen, List.foldl_cons]

/-- Settles O50: patches that fit are writes to the image's memory, in their order. -/
theorem launchState : Obligations.LaunchState := by
  intro c image patches input hvalid
  refine ⟨fun himage hpatches => ⟨_, launch_of_fits hvalid himage hpatches, rfl, rfl, rfl, rfl, rfl, rfl,
    Memory.writeAll_len _ patches, fun a => ?_⟩, launch_of_not_fits hvalid⟩
  rw [← Memory.read_ofImage]
  exact Memory.read_writeAll _ patches a

/-! ### The invariant from launch on (R20) -/

theorem Memory.writeAll_len_le {m : Memory} {ws : List (Nat × Word)} {n : Nat} (hm : m.len ≤ n)
    (hws : ∀ p ∈ ws, p.1 < n) : (m.writeAll ws).len ≤ n := by
  induction ws generalizing m with
  | nil => exact hm
  | cons p ws ih =>
    refine ih (m := m.write p.1 p.2) ?_ fun q hq => hws q (.tail _ hq)
    rw [write_len]
    split
    · exact hws p (.head _)
    · exact hm

theorem launched_inv {c : Config} {image : List Word} {patches : List (Nat × Word)} (hvalid : c.valid)
    (himage : image.length ≤ c.memWords) (hpatches : ∀ p ∈ patches, p.1 < c.memWords) (input : Option Word) :
    (launched c image patches input).inv := by
  refine ⟨hvalid, Memory.writeAll_wf (Memory.ofImage_wf image) patches, Memory.writeAll_len_le himage hpatches,
    Nat.zero_le _, ?_⟩
  change c.outCapacity.all (fun n => ([] : List Word).length ≤ n) = true
  cases c.outCapacity <;> simp

theorem launch_inv {c : Config} {image : List Word} {patches : List (Nat × Word)} {input : Option Word} {s : State}
    (hvalid : c.valid) (h : launch c image patches input = .ok s) : s.inv := by
  by_cases hfits : image.length ≤ c.memWords ∧ ∀ p ∈ patches, p.1 < c.memWords
  · obtain ⟨himage, hpatches⟩ := hfits
    cases (launch_of_fits hvalid himage hpatches).symm.trans h
    exact launched_inv hvalid himage hpatches input
  · have hnot : c.memWords < image.length ∨ ∃ p ∈ patches, c.memWords ≤ p.1 := by
      simpa only [not_and_or, not_forall, not_le, not_lt, exists_prop] using hfits
    obtain ⟨e, he⟩ := launch_of_not_fits (input := input) hvalid hnot
    cases he.symm.trans h

/-- What every step keeps, every run keeps. -/
theorem State.run_inv {s : State} (h : s.inv) (n : Nat) : (s.run n).inv := by
  induction n generalizing s with
  | zero => exact h
  | succ n ih =>
    rw [State.run]
    split
    · next t ht => exact ih (stepKeepsInvariant s t h ht)
    · exact h
    · exact h

/-- Settles O51: the launch state meets the invariant, and runs keep it. -/
theorem runsFromLaunchKeepInvariant : Obligations.RunsFromLaunchKeepInvariant :=
  fun _ _ _ _ _ n hvalid h => State.run_inv (launch_inv hvalid h) n

/-! ### Decimal text (R64, R66) -/

theorem digitValue_digitChar {d : Nat} (h : d < 10) : digitValue (Nat.digitChar d) = some d := by
  interval_cases d <;> rfl

theorem digitsValue_append (n : Nat) (cs ds : List Char) :
    digitsValue n (cs ++ ds) = (digitsValue n cs).bind fun m => digitsValue m ds := by
  induction cs generalizing n with
  | nil => rfl
  | cons c cs ih =>
    rw [List.cons_append, digitsValue, digitsValue]
    cases digitValue c with
    | none => rfl
    | some d => exact ih _

theorem digitsValue_toDigits (n : Nat) : digitsValue 0 (Nat.toDigits 10 n) = some n := by
  induction n using Nat.strongRecOn with
  | ind n ih =>
    obtain hlt | hge := Nat.lt_or_ge n 10
    · rw [Nat.toDigits_of_lt_base hlt, digitsValue, digitValue_digitChar hlt]
      simp only [digitsValue, Nat.zero_mul, Nat.zero_add]
    · have hmod : n % 10 < 10 := Nat.mod_lt n (by decide)
      have hsplit := Nat.toDigits_append_toDigits (b := 10) (by decide) (show 0 < n / 10 by omega) hmod
      rw [Nat.div_add_mod] at hsplit
      rw [← hsplit, digitsValue_append, ih (n / 10) (by omega), Nat.toDigits_of_lt_base hmod, Option.bind_some,
        digitsValue, digitValue_digitChar hmod]
      simp only [digitsValue, Nat.div_add_mod']

theorem numeralValue_toDigits (n : Nat) : numeralValue (Nat.toDigits 10 n) = some n := by
  have h := digitsValue_toDigits n
  cases hd : Nat.toDigits 10 n with
  | nil => exact absurd hd Nat.toDigits_ne_nil
  | cons c cs => rwa [hd] at h

theorem integerValue_minus {ds : List Char} {n : Nat} (h : numeralValue ds = some n) :
    integerValue ('-' :: ds) = some (-(n : Int)) := by
  simp only [integerValue, h]
  rfl

theorem integerValue_of_head_ne {c : Char} {cs : List Char} {n : Nat} (hc : c ≠ '-')
    (h : numeralValue (c :: cs) = some n) : integerValue (c :: cs) = some (n : Int) := by
  rw [integerValue, h]
  · rfl
  · rintro ds ⟨⟩
    exact hc rfl

theorem isDigit_of_mem_toDigits {c : Char} {n : Nat} (h : c ∈ Nat.toDigits 10 n) : c.isDigit = true :=
  Nat.isDigit_of_mem_toDigits (by decide) (by decide) h

theorem integerValue_wordText (w : Word) : integerValue (wordText w) = some w.toInt := by
  have hnum := numeralValue_toDigits w.toInt.natAbs
  rw [wordText]
  split
  · next hneg =>
    rw [integerValue_minus hnum, Int.ofNat_natAbs_of_nonpos (Int.le_of_lt hneg), Int.neg_neg]
  · next hnonneg =>
    cases hd : Nat.toDigits 10 w.toInt.natAbs with
    | nil => exact absurd hd Nat.toDigits_ne_nil
    | cons c cs =>
      have hdigit : c.isDigit = true := isDigit_of_mem_toDigits (hd ▸ List.mem_cons_self)
      have hc : c ≠ '-' := by
        rintro rfl
        exact absurd hdigit (by decide)
      rw [integerValue_of_head_ne hc (hd ▸ hnum), Int.natAbs_of_nonneg (Int.not_lt.1 hnonneg)]

/-- The characters of a word's text: neither a comma nor white space. -/
theorem wordText_chars {w : Word} {c : Char} (h : c ∈ wordText w) : c ≠ ',' ∧ isBlank c = false := by
  have hc : c = '-' ∨ c.isDigit = true := by
    rw [wordText] at h
    split at h
    · exact (List.mem_cons.1 h).imp_right isDigit_of_mem_toDigits
    · exact .inr (isDigit_of_mem_toDigits h)
  obtain rfl | hdigit := hc
  · decide
  · have hne : ∀ b : Char, b.isDigit = false → c ≠ b := by
      rintro b hb rfl
      cases hb.symm.trans hdigit
    have hspace := hne ' ' (by decide)
    have htab := hne '\t' (by decide)
    have hcr := hne '\r' (by decide)
    have hlf := hne '\n' (by decide)
    exact ⟨hne ',' (by decide), by simp [isBlank, hspace, htab, hcr, hlf]⟩

theorem dropWhile_isBlank_eq_self {t : List Char} (h : ∀ c ∈ t, isBlank c = false) : t.dropWhile isBlank = t := by
  cases t with
  | nil => rfl
  | cons c t => rw [List.dropWhile_cons_of_neg (by simp [h c (.head _)])]

theorem trimBlanks_eq_self {t : List Char} (h : ∀ c ∈ t, isBlank c = false) : trimBlanks t = t := by
  rw [trimBlanks, dropWhile_isBlank_eq_self h,
    dropWhile_isBlank_eq_self fun c hc => h c (List.mem_reverse.1 hc), List.reverse_reverse]

theorem parseToken_wordText (w : Word) : parseToken (wordText w) = .ok w := by
  have hmin := BitVec.le_toInt w
  have hmax := BitVec.toInt_lt (x := w)
  have hrange : intMin ≤ w.toInt ∧ w.toInt ≤ intMax := by
    simp only [intMin, intMax]
    omega
  rw [parseToken, trimBlanks_eq_self fun c hc => (wordText_chars hc).2, integerValue_wordText]
  simp only [hrange, BitVec.ofInt_toInt]
  rfl

theorem splitCommas_cons_of_ne {c : Char} (hc : c ≠ ',') {cs t : List Char} {ts : List (List Char)}
    (h : splitCommas cs = t :: ts) : splitCommas (c :: cs) = (c :: t) :: ts := by
  rw [splitCommas, if_neg hc, h]

theorem splitCommas_eq_singleton {t : List Char} (h : ∀ c ∈ t, c ≠ ',') : splitCommas t = [t] := by
  induction t with
  | nil => rfl
  | cons c t ih => exact splitCommas_cons_of_ne (h c (.head _)) (ih fun d hd => h d (.tail _ hd))

theorem splitCommas_append_comma {t : List Char} (h : ∀ c ∈ t, c ≠ ',') (rest : List Char) :
    splitCommas (t ++ ',' :: rest) = t :: splitCommas rest := by
  induction t with
  | nil => rfl
  | cons c t ih => exact splitCommas_cons_of_ne (h c (.head _)) (ih fun d hd => h d (.tail _ hd))

theorem splitCommas_programText (w : Word) (ws : List Word) :
    splitCommas (programText (w :: ws)) = (w :: ws).map wordText := by
  induction ws generalizing w with
  | nil => exact splitCommas_eq_singleton fun c hc => (wordText_chars hc).1
  | cons v ws ih =>
    rw [programText, splitCommas_append_comma fun c hc => (wordText_chars hc).1, ih, List.map_cons (l := v :: ws)]

theorem parseTokens_map_wordText (ws : List Word) : parseTokens (ws.map wordText) = .ok ws := by
  induction ws with
  | nil => rfl
  | cons w ws ih =>
    rw [List.map_cons, parseTokens, parseToken_wordText, ih]
    rfl

/-- Settles O53: the text splits at its commas into the words' texts, each of which parses to its word. -/
theorem programTextRoundTrip : Obligations.ProgramTextRoundTrip := by
  intro image hne
  cases image with
  | nil => exact absurd rfl hne
  | cons w ws => rw [parseProgram, splitCommas_programText, parseTokens_map_wordText]

/-- Settles O54, by running the parser on each text. -/
theorem programTextEdgeCases : Obligations.ProgramTextEdgeCases := by
  refine ⟨?_, ?_, ?_, ?_, ?_, ?_, ?_, ?_⟩ <;> decide

end Sys2Proof.Machine
end
